-- ==== Sys2Proof/Word.lean ====
section
/-! DEFINITION. The word types of the CORE: byte, key word, block, state matrix (spec 00_scope.md R8, R10, R11; 10_state.md R22). -/

namespace Sys2Proof

/-- R8: an unsigned 8-bit value. -/
abbrev Byte := BitVec 8

/-- R10: a sequence of exactly 4 bytes, byte 0 first; not an integer. -/
abbrev Word := Vector Byte 4

/-- R55: the 16 bytes of a block, in buffer order. -/
abbrev Block := Vector Byte 16

/-- R22: the 4 by 4 state matrix, held row by row: element `S[r][c]` is entry `c` of row `r`. -/
abbrev Mat := Vector (Vector Byte 4) 4

/-- R29: the 44 words of the expanded key. -/
abbrev Expanded := Vector Word 44

end Sys2Proof
end

