-- ==== Sys2Proof/Syntax.lean ====
section
/-! DEFINITION. The instructions: the 15 micro-ops of spec 30_encoding.md R72 and the 2 HOST commands of R76, one constructor per row of the opcode table. -/

namespace Sys2Proof

/-- An instruction. `j` and `r` are the 4-bit ARG of the micro-op word (R71); every other micro-op has ARG 0. -/
inductive Instr where
  /-- 0x10, R131 -/
  | keyload
  /-- 0x20, R133 -/
  | rcongen
  /-- 0x3j, R138 -/
  | kexpr (j : BitVec 4)
  /-- 0x40, R155 -/
  | pack
  /-- 0x50, R158 -/
  | unpack
  /-- 0x6r, R150 -/
  | addroundkey (r : BitVec 4)
  /-- 0x70, R104 -/
  | subbytes
  /-- 0x80, R105 -/
  | invsubbytes
  /-- 0x90, R110 -/
  | shiftrows
  /-- 0xA0, R111 -/
  | invshiftrows
  /-- 0xB0, R120 -/
  | mixcolumns
  /-- 0xC0, R121 -/
  | invmixcolumns
  /-- 0xD0, R178 -/
  | blktest
  /-- 0xE0, R179 -/
  | nextblk
  /-- 0xF0, R177 -/
  | chkargs
  /-- HOST command 0x01, R165 and R173 -/
  | encrypt
  /-- HOST command 0x02, R170 and R173 -/
  | decrypt
  deriving DecidableEq, Repr

/-- R83: format U (a micro-op word, decoded at the ROM fetch) or H (a command byte, decoded at the CMD write). -/
inductive Format where
  | microOp
  | hostCommand
  deriving DecidableEq, Repr

/-- The format of an instruction's row (R83). -/
def Instr.format : Instr → Format
  | .keyload | .rcongen | .kexpr _ | .pack | .unpack | .addroundkey _ | .subbytes | .invsubbytes
  | .shiftrows | .invshiftrows | .mixcolumns | .invmixcolumns | .blktest | .nextblk | .chkargs =>
    .microOp
  | .encrypt | .decrypt => .hostCommand

/-- The mnemonic of R72 and R76. -/
def Instr.mnemonic : Instr → String
  | .keyload => "KEYLOAD"
  | .rcongen => "RCONGEN"
  | .kexpr _ => "KEXPR"
  | .pack => "PACK"
  | .unpack => "UNPACK"
  | .addroundkey _ => "ADDROUNDKEY"
  | .subbytes => "SUBBYTES"
  | .invsubbytes => "INVSUBBYTES"
  | .shiftrows => "SHIFTROWS"
  | .invshiftrows => "INVSHIFTROWS"
  | .mixcolumns => "MIXCOLUMNS"
  | .invmixcolumns => "INVMIXCOLUMNS"
  | .blktest => "BLKTEST"
  | .nextblk => "NEXTBLK"
  | .chkargs => "CHKARGS"
  | .encrypt => "ENCRYPT"
  | .decrypt => "DECRYPT"

/-- R81: one line of a listing, the mnemonic and the operand in decimal, separated by one space. -/
def Instr.listing (i : Instr) : String :=
  match i with
  | .kexpr a | .addroundkey a => i.mnemonic ++ " " ++ toString a.toNat
  | .keyload | .rcongen | .pack | .unpack | .subbytes | .invsubbytes | .shiftrows | .invshiftrows
  | .mixcolumns | .invmixcolumns | .blktest | .nextblk | .chkargs | .encrypt | .decrypt => i.mnemonic

end Sys2Proof
end

