-- ==== Sys2Proof/WellFormed.lean ====
section
/-! DEFINITION. Which instruction terms stand for a word: the operand ranges of spec 30_encoding.md R71. -/

namespace Sys2Proof

/-- R71: the index of the round key to compute is 1 to 10. -/
def legalExpandIndex (j : BitVec 4) : Bool := decide (1 ≤ j.toNat ∧ j.toNat ≤ 10)

/-- R71: the round index is 0 to 10. -/
def legalRoundIndex (r : BitVec 4) : Bool := decide (r.toNat ≤ 10)

/-- An instruction is well formed when its operand lies in the range R71 gives it. -/
def Instr.wf : Instr → Bool
  | .kexpr j => legalExpandIndex j
  | .addroundkey r => legalRoundIndex r
  | .keyload | .rcongen | .pack | .unpack | .subbytes | .invsubbytes | .shiftrows | .invshiftrows
  | .mixcolumns | .invmixcolumns | .blktest | .nextblk | .chkargs | .encrypt | .decrypt => true

end Sys2Proof
end

