-- ==== Sys2Proof/Decode.lean ====
section
/-! DEFINITION. The decoder and the encoder of spec 30_encoding.md: micro-op words (R70 to R74) and HOST command bytes (R75 to R77). -/

namespace Sys2Proof

/-- Why a byte is no instruction. -/
inductive DecodeReject where
  /-- R74: one of the 222 words that R73 returns ILLEGAL for; the fetched word. -/
  | illegalMicroOp (w : Byte)
  /-- R77: one of the 254 values of CMD that are no command; the value. -/
  | illegalCommand (v : Byte)
  deriving DecidableEq, Repr

/-- R70: OP is bits 7:4 of the word. -/
def opField (w : Byte) : BitVec 4 := w.extractLsb' 4 4

/-- R70: ARG is bits 3:0 of the word. -/
def argField (w : Byte) : BitVec 4 := w.extractLsb' 0 4

/-- R72: the operation of a micro-op word whose ARG must be 0. -/
def plainOp (op : BitVec 4) : Option Instr :=
  match op.toNat with
  | 0x1 => some .keyload
  | 0x2 => some .rcongen
  | 0x4 => some .pack
  | 0x5 => some .unpack
  | 0x7 => some .subbytes
  | 0x8 => some .invsubbytes
  | 0x9 => some .shiftrows
  | 0xA => some .invshiftrows
  | 0xB => some .mixcolumns
  | 0xC => some .invmixcolumns
  | 0xD => some .blktest
  | 0xE => some .nextblk
  | 0xF => some .chkargs
  | _ => none

/-- R73: decoding of a micro-op word, total on the 256 words. -/
def decodeMicro (w : Byte) : Except DecodeReject Instr :=
  if opField w = 0x3 ∧ legalExpandIndex (argField w) = true then .ok (.kexpr (argField w))
  else if opField w = 0x6 ∧ legalRoundIndex (argField w) = true then .ok (.addroundkey (argField w))
  else if argField w = 0 then
    match plainOp (opField w) with
    | some i => .ok i
    | none => .error (.illegalMicroOp w)
  else .error (.illegalMicroOp w)

/-- R76, R77: decoding of a command byte, total on the 256 values. -/
def decodeCommand (v : Byte) : Except DecodeReject Instr :=
  match v.toNat with
  | 0x01 => .ok .encrypt
  | 0x02 => .ok .decrypt
  | _ => .error (.illegalCommand v)

/-- R79: every micro-op is one word, so a string of words decodes word by word. -/
def decodeProgram (ws : List Byte) : Except DecodeReject (List Instr) := ws.mapM decodeMicro

/-- R70: the word of an operation and an operand is OP * 16 + ARG. -/
def microWord (op arg : BitVec 4) : Byte := op ++ arg

/-- R72, R76: the word of an instruction. -/
def encode : Instr → Byte
  | .keyload => microWord 0x1 0
  | .rcongen => microWord 0x2 0
  | .kexpr j => microWord 0x3 j
  | .pack => microWord 0x4 0
  | .unpack => microWord 0x5 0
  | .addroundkey r => microWord 0x6 r
  | .subbytes => microWord 0x7 0
  | .invsubbytes => microWord 0x8 0
  | .shiftrows => microWord 0x9 0
  | .invshiftrows => microWord 0xA 0
  | .mixcolumns => microWord 0xB 0
  | .invmixcolumns => microWord 0xC 0
  | .blktest => microWord 0xD 0
  | .nextblk => microWord 0xE 0
  | .chkargs => microWord 0xF 0
  | .encrypt => 0x01
  | .decrypt => 0x02

/-- R83: the instruction of a table row's word. The two formats are decoded in different places; no byte is legal in
both (OP = 0 is no micro-op), so a byte that is a micro-op word is read as one, and any other as a command. -/
def decodeByte (w : Byte) : Except DecodeReject Instr :=
  match decodeMicro w with
  | .ok i => .ok i
  | .error _ => decodeCommand w

/-- The word numbered as spec/opcode_table.json numbers it: the low `nbits` bits of `w`, which must fit one byte. -/
def tableByte (nbits w : Nat) : Option Byte :=
  if w % 2 ^ nbits < 256 then some (BitVec.ofNat 8 (w % 2 ^ nbits)) else none

/-- What the decoder reads from a row of the opcode table. -/
def decodeTableWord (nbits w : Nat) : Option Instr :=
  match tableByte nbits w with
  | some b =>
    match decodeByte b with
    | .ok i => some i
    | .error _ => none
  | none => none

end Sys2Proof
end

