-- ==== Sys2Proof/Config.lean ====
section
/-! DEFINITION. What the source leaves open: the parameters of spec 00_scope.md R7 and the free values. -/

namespace Sys2Proof.Config

/-- R7: DMAX (bytes of DIN and of DOUT) and LENW (bits of DLEN, OLEN, BLK, NBLK). -/
inductive Sizing where
  /-- "the model may take it unbounded" (R7) -/
  | unbounded
  | bounded (dmax lenw : Nat)
  deriving DecidableEq, Repr

/-- The OPEN parameters of one CORE; no step changes them (10_state.md R45). -/
structure Params where
  size : Sizing
  /-- TRACE: whether the trace port exists. -/
  tracePort : Bool
  deriving DecidableEq, Repr

/-- R7, 92_eei_decisions.md: DMAX is a multiple of 16, at least 16, and LENW is large enough to hold it. -/
def Sizing.wf : Sizing → Bool
  | .unbounded => true
  | .bounded dmax lenw => decide (dmax % 16 = 0 ∧ 16 ≤ dmax ∧ dmax < 2 ^ lenw)

/-- Whether a byte count fits in DMAX. -/
def Sizing.admits : Sizing → Nat → Bool
  | .unbounded, _ => true
  | .bounded dmax _, n => decide (n ≤ dmax)

/-- Cut to LENW bits. -/
def Sizing.clip : Sizing → Nat → Nat
  | .unbounded, n => n
  | .bounded _ lenw, n => n % 2 ^ lenw

/-- FREE VALUE (log 2): bit patterns of registers that hold no value after a command (10_state.md R47). -/
opaque freeByte : Nat → Byte

/-- FREE VALUE (log 2): contents of BLK and NBLK after a command (10_state.md R47). -/
opaque freeCount : Nat → Nat

end Sys2Proof.Config
end

