-- ==== Sys2Proof/Machine/State.lean ====
section
/-! DEFINITION. The state of one CORE instance (spec 10_state.md), the reasons a step can stop, and the state after reset (R46, R220). -/

namespace Sys2Proof.Machine

/-- R50: the address spaces, each addressed by an offset from 0. -/
inductive Space where
  | keybuf | din | dout | fsbox | isbox | encProg | decProg
  deriving DecidableEq, Repr

/-- The contents of a buffer: the bytes that hold a value, by rising offset. A byte that is not listed holds no value (R21). -/
abbrev Memory := List Host.Cell

/-- What an unlisted offset reads as: no value (R21, R46; log 3). -/
def Memory.unlisted : Option Byte := none

/-- The canonical form: offsets strictly rising. (An unlisted byte holds no value, so no entry can equal it.) -/
abbrev Memory.wf (m : Memory) : Prop := m.Pairwise fun x y => x.1 < y.1

/-- R190: the five hardware faults. -/
inductive CoreFault where
  | keyTooLarge | invariantViolation | lengthNotMultiple | illegalCommand | illegalMicroOp
  deriving DecidableEq, Repr

/-- R36: STATUS.STATE. -/
inductive Phase where
  | idle | busy | done | fault
  deriving DecidableEq, Repr

/-- R32: PROG, the micro-program in use. -/
inductive ProgSel where
  | enc | dec
  deriving DecidableEq, Repr

/-- R21: which registers hold a value. The control registers CMD, STATUS, OLEN and CTRL always do (R46). -/
@[ext]
structure Held where
  keylen : Bool
  dlen : Bool
  K : Bool
  RC : Bool
  W : Vector Bool 44
  S : Bool
  prog : Bool
  upc : Bool
  blk : Bool
  nblk : Bool
  deriving DecidableEq, Repr

/-- R211: a trace event, the micro-op word just executed and S in unpack order. -/
structure TraceEvent where
  name : Byte
  snapshot : Block
  deriving DecidableEq, Repr

/-- An access the HOST makes (R41, R42, R50): a control register by its number, or one byte of a space. -/
inductive HostMove where
  | writeCr (cr v : Nat)
  | readCr (cr : Nat)
  | writeSpace (sp : Space) (a : Nat) (b : Byte)
  | readSpace (sp : Space) (a : Nat)
  deriving DecidableEq, Repr

/-- What happens next: the CORE's turn, a HOST access, or a reset (log 7). -/
inductive Event where
  | core
  | host (m : HostMove)
  | reset
  deriving DecidableEq, Repr

/-- The state of one CORE instance (R20). The fields from `params` on are not registers of the spec: the fixed
parameters, which registers hold a value, and the model's own lists and counter. -/
@[ext]
structure State where
  /-- KEYBUF (R24) -/
  keybuf : Memory
  /-- DIN (R42) -/
  din : Memory
  /-- DOUT (R42) -/
  dout : Memory
  /-- CR0 CMD (R35) -/
  cmd : Byte
  /-- CR1 STATUS.STATE (R36) -/
  phase : Phase
  /-- CR1 STATUS.ERR (R36); `none` is code 0 -/
  err : Option CoreFault
  /-- CR2 KEYLEN (R25) -/
  keylen : Byte
  /-- CR3 DLEN (R38), LENW bits (log 5) -/
  dlen : Nat
  /-- CR4 OLEN (R39), LENW bits (log 5) -/
  olen : Nat
  /-- CR5 CTRL bit 0, TRACE_EN (R40); the other bits are hard-wired 0 -/
  traceEn : Bool
  /-- K, the zero-extended key (R27) -/
  K : Block
  /-- RC[1] to RC[10] (R28); entry n is RC[n + 1] -/
  RC : Vector Byte 10
  /-- W, the expanded key (R29) -/
  W : Expanded
  /-- S, the state matrix (R22) -/
  S : Mat
  /-- PROG (R32) -/
  prog : ProgSel
  /-- UPC, the micro-pc (R33) -/
  upc : BitVec 6
  /-- BLK (R31), LENW bits (log 5) -/
  blk : Nat
  /-- NBLK (R31), LENW bits (log 5) -/
  nblk : Nat
  /-- ENC_PROG, a ROM image (R20, R66; log 6) -/
  encProg : Vector Byte 57
  /-- DEC_PROG, a ROM image (R20, R66; log 6) -/
  decProg : Vector Byte 57
  /-- DMAX, LENW, TRACE (R45; log 4) -/
  params : Config.Params
  /-- which registers hold a value (R21) -/
  held : Held
  /-- the events to come, next first (log 7) -/
  sched : List Event
  /-- what HOST reads have returned, oldest first (log 9) -/
  answers : List Nat
  /-- what the trace port has emitted, oldest first (R211; log 9) -/
  trace : List TraceEvent
  /-- how many free values have been used (log 2) -/
  free : Nat
  deriving DecidableEq, Repr

/-- The model-only fault of 60_exceptions.md R203. The hardware's own faults are next states (R196), not these. -/
inductive Fault where
  /-- Raised by KEYLOAD and PACK on a buffer byte that holds no value, and by a HOST read of a DOUT byte that is not
  valid (R21, R222; U5, U7). Safe: hardware would go on with whatever the cell holds. -/
  | unwrittenRead
  deriving DecidableEq, Repr

/-- The moves the model does not accept. -/
inductive Refusal where
  /-- Raised by exec's arm of an instruction that has no meaning yet. Safe. -/
  | notModelled (mnemonic : String)
  /-- Raised by MemRead and MemWrite past the end of a space (R50, R203): KEYLOAD with KEYLEN above 16, PACK and UNPACK
  past DMAX, a HOST access past the end. Safe: no rule makes such an access. -/
  | accessOutsideSpace
  /-- Raised by PACK on more than 16 bytes (R156). Safe: never formed. -/
  | chunkTooLong
  /-- Raised by KEXPR and ADDROUNDKEY on an operand that no legal word carries (R74, R141). Safe: does not decode. -/
  | operandOutOfRange
  /-- Raised by any HOST move but a read of STATUS while STATE is BUSY (R201, U4). Safe. -/
  | hostWhileBusy
  /-- Raised by a HOST access to what it has no path to: CR6 and above, a ROM, a read of KEYBUF or DIN, a write of DOUT, a
  value wider than the register (R41, R50, U10; log 11). Safe. -/
  | hostNoPath
  /-- Raised by a HOST write of DLEN above DMAX (R38, U8). Safe. -/
  | messageTooLong
  deriving DecidableEq, Repr

/-- What a step, a meaning or an access answers. -/
abbrev Res (α : Type) := Host.Outcome α Fault Refusal

/-- R46: after reset no register but CMD, STATUS, OLEN and CTRL holds a value. -/
def Held.nothing : Held :=
  { keylen := false, dlen := false, K := false, RC := false, W := Vector.replicate 44 false, S := false,
    prog := false, upc := false, blk := false, nblk := false }

/-- R46, R220: the machine right after reset. The contents of registers that hold no value are zero (DESIGN CHOICE,
log 1); the parameters are the most general ones (DESIGN CHOICE, log 4). -/
def State.reset : State :=
  { keybuf := [], din := [], dout := []
    cmd := 0x00, phase := .idle, err := none, keylen := 0, dlen := 0, olen := 0, traceEn := false
    K := Vector.replicate 16 0, RC := Vector.replicate 10 0
    W := Vector.replicate 44 (Vector.replicate 4 0), S := Vector.replicate 4 (Vector.replicate 4 0)
    prog := .enc, upc := 0, blk := 0, nblk := 0
    encProg := encProgram, decProg := decProgram
    params := { size := .unbounded, tracePort := true }
    held := Held.nothing, sched := [], answers := [], trace := [], free := 0 }

end Sys2Proof.Machine
end

