-- ==== Sys2Proof/Machine/Flags.lean ====
section
/-! DEFINITION. The flags: STATUS (spec 10_state.md R36) and CTRL (R40) as the HOST reads them. -/

namespace Sys2Proof.Machine

/-- R36: STATUS.STATE, bits 1:0. -/
def Phase.code : Phase → Nat
  | .idle => 0
  | .busy => 1
  | .done => 2
  | .fault => 3

/-- R190: the code of a fault. -/
def CoreFault.code : CoreFault → Nat
  | .keyTooLarge => 1
  | .invariantViolation => 2
  | .lengthNotMultiple => 3
  | .illegalCommand => 4
  | .illegalMicroOp => 5

/-- R36: STATUS.ERR, bits 4:2; 0 is NONE. -/
def errCode : Option CoreFault → Nat
  | none => 0
  | some f => f.code

/-- R36: the STATUS register; bits 7:5 read as 0. -/
def State.status (s : State) : Byte := BitVec.ofNat 8 (s.phase.code + 4 * errCode s.err)

/-- R40: the CTRL register; bits 7:1 read as 0. -/
def State.ctrl (s : State) : Byte := if s.traceEn then 0x01 else 0x00

/-- R40: TRACE_EN after a write of `v`: bit 0, hard-wired 0 where there is no trace port. -/
def traceEnable (p : Config.Params) (v : Byte) : Bool := v.getLsbD 0 && p.tracePort

end Sys2Proof.Machine
end

