-- ==== Sys2Proof/Machine/Bytes.lean ====
section
/-! DEFINITION. Words, blocks and matrices element by element (spec 00_scope.md R9 to R12). -/

namespace Sys2Proof.Machine

/-- R10: the word with byte 0 first. -/
def mkWord (b0 b1 b2 b3 : Byte) : Word := #v[b0, b1, b2, b3]

/-- R9, R10: XOR of two words is byte by byte. -/
def xorWord (u v : Word) : Word := Vector.ofFn fun i => u[i] ^^^ v[i]

/-- R10: a word in a 32-bit register, byte 0 in bits 31:24. No rule depends on it. -/
def wordBits (w : Word) : BitVec 32 := w[0] ++ w[1] ++ w[2] ++ w[3]

/-- R12: `zext_16`, a byte string extended on the right with zero bytes to 16 bytes. -/
def zext16 (v : List Byte) : Block := Vector.ofFn fun i => v.getD i.val 0

/-- R11: the matrix with element `f r c` at row `r`, column `c`. -/
def Mat.ofFn (f : Fin 4 → Fin 4 → Byte) : Mat := Vector.ofFn fun r => Vector.ofFn fun c => f r c

/-- R11: `S[r][c]`. -/
def Mat.at (m : Mat) (r c : Fin 4) : Byte := (m[r])[c]

/-- R11: column `c` of the state, the word from row 0 down to row 3. -/
def Mat.col (m : Mat) (c : Fin 4) : Word := Vector.ofFn fun r => Mat.at m r c

/-- The matrix of four columns (R11). -/
def Mat.ofCols (cols : Vector Word 4) : Mat := Mat.ofFn fun r c => (cols[c])[r]

/-- R11: the flat index of `S[r][c]` is `r + 4c`. -/
def flatIndex (r c : Fin 4) : Fin 16 := ⟨r.val + 4 * c.val, by omega⟩

/-- R11: the row of flat index `k` is `k mod 4`. -/
def flatRow (k : Fin 16) : Fin 4 := ⟨k.val % 4, by omega⟩

/-- R11: the column of flat index `k` is `k div 4`. -/
def flatCol (k : Fin 16) : Fin 4 := ⟨k.val / 4, by omega⟩

end Sys2Proof.Machine
end

