-- ==== Sys2Proof/Machine/Operands.lean ====
section
/-! DEFINITION. Operand forms: the round key a round index selects (spec 44_key_schedule.md R141), the effective address and length of a block access (46_block_codec.md R155). -/

namespace Sys2Proof.Machine

/-- R141: the four words of round key `r`. -/
def roundKey (W : Expanded) (r : Fin 11) : Vector Word 4 := Vector.ofFn fun c => W[4 * r.val + c.val]

/-- R141: GETSUBKEY, refused above 10. -/
def getSubkey (W : Expanded) (r : Nat) : Option (Vector Word 4) :=
  if h : r < 11 then some (roundKey W ⟨r, h⟩) else none

/-- R141: round key `r` as a 16-byte string, byte 0 of its first word first. -/
def roundKeyBytes (W : Expanded) (r : Fin 11) : Block :=
  Vector.ofFn fun k => ((roundKey W r)[flatCol k])[flatRow k]

/-- R155, R158: the effective address of a block access is 16 * BLK. -/
def blockBase (s : State) : Nat := 16 * s.blk

/-- R155: how many bytes PACK reads, `min(16, DLEN - base)`. BLKTEST admits PACK only when there is at least one; with
none left the count is 0 (log 12). -/
def chunkLength (s : State) : Nat := min 16 (s.dlen - blockBase s)

/-- R31: `ceil(DLEN / 16)`. -/
def blockCount (dlen : Nat) : Nat := (dlen + 15) / 16

end Sys2Proof.Machine
end

