-- ==== Sys2Proof/Machine/Ops.lean ====
section
/-! DEFINITION. The shared operations: the buffers, MemRead and MemWrite (spec 20_memory.md R50), register writes, the trace port (60_exceptions.md R211), fault entry (R196), the end of a command (10_state.md R47) and command start (47_cipher_driver.md R173). -/

namespace Sys2Proof.Machine

/-- Go on with the value of an answer; a fault or a refusal stays. -/
def Res.andThen {α β : Type} (x : Res α) (f : α → Res β) : Res β :=
  match x with
  | .next a => f a
  | .fault r => .fault r
  | .refused r => .refused r

/-! ### Buffers -/

/-- The byte at offset `a`, if it holds a value. -/
def Memory.read : Memory → Nat → Option Byte
  | [], _ => Memory.unlisted
  | (x, b) :: m, a => if x = a then some b else Memory.read m a

/-- Store `b` at offset `a`, keeping the offsets rising. -/
def Memory.write : Memory → Nat → Byte → Memory
  | [], a, b => [(a, b)]
  | (x, c) :: m, a, b =>
    if a < x then (a, b) :: (x, c) :: m
    else if a = x then (a, b) :: m
    else (x, c) :: Memory.write m a b

/-- Store a byte string at `a`, `a + 1`, ... (R50). -/
def Memory.writeAll : Memory → Nat → List Byte → Memory
  | m, _, [] => m
  | m, a, b :: bs => Memory.writeAll (Memory.write m a b) (a + 1) bs

/-- The `n` bytes from `a` on, lowest offset first, if each holds a value (R50). -/
def collect (rd : Nat → Option Byte) (a : Nat) : Nat → Option (List Byte)
  | 0 => some []
  | n + 1 =>
    match rd a, collect rd (a + 1) n with
    | some b, some bs => some (b :: bs)
    | _, _ => none

/-! ### MemRead and MemWrite -/

/-- R50: the size of a space; `none` where DMAX is unbounded. -/
def State.spaceSize (s : State) : Space → Option Nat
  | .keybuf => some 16
  | .din | .dout =>
    match s.params.size with
    | .unbounded => none
    | .bounded dmax _ => some dmax
  | .fsbox | .isbox => some 256
  | .encProg | .decProg => some 57

/-- R50: whether the access at `a` of `n` bytes lies in the space. -/
def State.inSpace (s : State) (sp : Space) (a n : Nat) : Bool :=
  match s.spaceSize sp with
  | none => true
  | some z => decide (a + n ≤ z)

/-- One byte of a space, if it holds a value (R50). -/
def State.byteAt (s : State) (sp : Space) (a : Nat) : Option Byte :=
  match sp with
  | .keybuf => Memory.read s.keybuf a
  | .din => Memory.read s.din a
  | .dout => Memory.read s.dout a
  | .fsbox => if a < 256 then some (fsbox (BitVec.ofNat 8 a)) else none
  | .isbox => if a < 256 then some (isbox (BitVec.ofNat 8 a)) else none
  | .encProg => s.encProg[a]?
  | .decProg => s.decProg[a]?

/-- R50: `MemRead(SPACE, a, n)`. Refused outside the space; a byte that holds no value is the model fault of R21. -/
def memRead (s : State) (sp : Space) (a n : Nat) : Res (List Byte) :=
  if s.inSpace sp a n then
    match collect (s.byteAt sp) a n with
    | some bs => .next bs
    | none => .fault .unwrittenRead
  else .refused .accessOutsideSpace

/-- R50: `MemWrite(SPACE, a, n, v)`. Refused outside the space; nothing writes a ROM (R66). -/
def memWrite (s : State) (sp : Space) (a : Nat) (v : List Byte) : Res State :=
  if s.inSpace sp a v.length then
    match sp with
    | .keybuf => .next { s with keybuf := Memory.writeAll s.keybuf a v }
    | .din => .next { s with din := Memory.writeAll s.din a v }
    | .dout => .next { s with dout := Memory.writeAll s.dout a v }
    | .fsbox | .isbox | .encProg | .decProg => .refused .hostNoPath
  else .refused .accessOutsideSpace

/-! ### Registers -/

/-- R34: `UPC <- UPC + 1`. -/
def advance (s : State) : State := { s with upc := s.upc + 1, held := { s.held with upc := true } }

/-- R34: `UPC <- t`. -/
def jumpTo (t : BitVec 6) (s : State) : State := { s with upc := t, held := { s.held with upc := true } }

/-- `K <- v` (R27). -/
def writeK (v : Block) (s : State) : State := { s with K := v, held := { s.held with K := true } }

/-- `RC <- v` (R28). -/
def writeRC (v : Vector Byte 10) (s : State) : State := { s with RC := v, held := { s.held with RC := true } }

/-- `W[i] <- v` (R29). -/
def writeWord (i : Fin 44) (v : Word) (s : State) : State :=
  { s with W := s.W.set i.val v, held := { s.held with W := s.held.W.set i.val true } }

/-- `BLK <- n` (R31). -/
def writeBlk (n : Nat) (s : State) : State := { s with blk := n, held := { s.held with blk := true } }

/-- `NBLK <- n` (R31). -/
def writeNblk (n : Nat) (s : State) : State := { s with nblk := n, held := { s.held with nblk := true } }

/-! ### S and the trace port -/

/-- R51: byte `k` of a block is `S[k mod 4][k div 4]`. -/
def unpackMat (m : Mat) : Block := Vector.ofFn fun k => Mat.at m (flatRow k) (flatCol k)

/-- R51: the matrix of a block, the same index map. -/
def packBlock (b : Block) : Mat := Mat.ofFn fun r c => b[flatIndex r c]

/-- R211: the event emitted after a micro-op that writes S, when the port exists and is enabled. -/
def traceEvents (s : State) (i : Instr) (m : Mat) : List TraceEvent :=
  if s.params.tracePort && s.traceEn then [{ name := encode i, snapshot := unpackMat m }] else []

/-- The end of every micro-op that writes S: `S <- m`, the UPC advances, the trace event is emitted (R174, R211). -/
def writeS (i : Instr) (m : Mat) (s : State) : State :=
  { s with
    S := m
    upc := s.upc + 1
    held := { s.held with S := true, upc := true }
    trace := s.trace ++ traceEvents s i m }

/-- R23: after UNPACK the state's life is over; S holds no value until PACK writes it again (log 13). -/
def dropS (s : State) : State := { s with held := { s.held with S := false } }

/-! ### End of a command, faults, command start -/

/-- Free bits for PROG (log 2). -/
def freeProg (n : Nat) : ProgSel := if (Config.freeByte n).getLsbD 0 then .dec else .enc

/-- R47: the internal registers hold no value; their contents are free values (log 2). -/
def endCommand (s : State) : State :=
  { s with
    K := Vector.ofFn fun i => Config.freeByte (s.free + i.val)
    RC := Vector.ofFn fun i => Config.freeByte (s.free + 16 + i.val)
    W := Vector.ofFn fun i => Vector.ofFn fun j => Config.freeByte (s.free + 26 + 4 * i.val + j.val)
    S := Mat.ofFn fun r c => Config.freeByte (s.free + 202 + r.val + 4 * c.val)
    prog := freeProg (s.free + 218)
    upc := (Config.freeByte (s.free + 219)).extractLsb' 0 6
    blk := s.params.size.clip (Config.freeCount s.free)
    nblk := s.params.size.clip (Config.freeCount (s.free + 1))
    held := { Held.nothing with keylen := s.held.keylen, dlen := s.held.dlen }
    free := s.free + 220 }

/-- R196: fault entry, the one operation that takes a hardware fault. Nothing is saved and there is no handler; the
sequencer stops. -/
def raise (f : CoreFault) (s : State) : State := { endCommand s with err := some f, phase := .fault, olen := 0 }

/-- R178: the end of a command without a fault. -/
def finish (s : State) : State := { endCommand s with phase := .done, olen := 16 * s.nblk }

/-- R173: the start of the command that PROG value `p` names. It also leaves the FAULT state, the only way out of it
besides a reset (R200). -/
def enter (p : ProgSel) (s : State) : State :=
  { s with
    prog := p, upc := 0, err := none, phase := .busy
    held := { s.held with prog := true, upc := true } }

/-- R173: what every write to CMD does first. -/
def latchCommand (v : Byte) (s : State) : State := { s with cmd := v, olen := 0 }

/-- R173, R194: a HOST write of `v` to CMD while STATE is not BUSY. -/
def startCommand (v : Byte) (s : State) : State :=
  if v = 0x01 then enter .enc (latchCommand v s)
  else if v = 0x02 then enter .dec (latchCommand v s)
  else raise .illegalCommand (latchCommand v s)

/-- R201: while STATE is BUSY the HOST has no such move. -/
def unlessBusy (s : State) (x : Res State) : Res State :=
  if s.phase = .busy then .refused .hostWhileBusy else x

/-- A transform whose result may be a hardware fault (R94): the new S, or fault entry. -/
def writeSOrRaise (i : Instr) (x : Except CoreFault Mat) (s : State) : State :=
  match x with
  | .ok m => writeS i m s
  | .error f => raise f s

end Sys2Proof.Machine
end

