-- ==== Sys2Proof/Machine/AddRoundKey.lean ====
section
/-! DEFINITION. ADDROUNDKEY (spec 45_addroundkey.md). -/

namespace Sys2Proof.Machine

/-- R150: round-key word `col` is XORed into column `col`, byte `row` of the word meeting row `row`. -/
def addRoundKey (key : Vector Word 4) (m : Mat) : Mat :=
  Mat.ofFn fun row col => Mat.at m row col ^^^ (key[col])[row]

/-- ADDROUNDKEY r, R150. A round index above 10, which no legal word carries, is refused (R141). -/
def execAddroundkey (r : BitVec 4) (s : State) : Host.Outcome State Fault Refusal :=
  match getSubkey s.W r.toNat with
  | some key => .next (writeS (.addroundkey r) (addRoundKey key s.S) s)
  | none => .refused .operandOutOfRange

end Sys2Proof.Machine
end

