-- ==== Sys2Proof/Machine/BlockCodec.lean ====
section
/-! DEFINITION. PACK, the CORE's only load from DIN, and UNPACK, its only store (spec 46_block_codec.md). -/

namespace Sys2Proof.Machine

/-- R155, R156: the state of a chunk of at most 16 bytes, zero-filled; a longer chunk is refused. -/
def packChunk (chunk : List Byte) : Option Mat :=
  if chunk.length ≤ 16 then some (packBlock (zext16 chunk)) else none

/-- PACK, R155. -/
def execPack (s : State) : Host.Outcome State Fault Refusal :=
  Res.andThen (memRead s .din (blockBase s) (chunkLength s)) fun chunk =>
    match packChunk chunk with
    | some m => .next (writeS .pack m s)
    | none => .refused .chunkTooLong

/-- UNPACK, R158: always 16 bytes, at 16 * BLK. -/
def execUnpack (s : State) : Host.Outcome State Fault Refusal :=
  Res.andThen (memWrite s .dout (blockBase s) (unpackMat s.S).toList) fun t => .next (advance (dropS t))

end Sys2Proof.Machine
end

