-- ==== Sys2Proof/Machine/Driver.lean ====
section
/-! DEFINITION. The control micro-ops CHKARGS, BLKTEST and NEXTBLK (spec 47_cipher_driver.md). -/

namespace Sys2Proof.Machine

/-- R177, R199: what CHKARGS finds wrong, the key check before the length check. -/
def argumentFault (s : State) : Option CoreFault :=
  if 16 < s.keylen.toNat then some .keyTooLarge
  else if s.prog = .dec ∧ s.dlen % 16 ≠ 0 then some .lengthNotMultiple
  else none

/-- CHKARGS, R177. -/
def execChkargs (s : State) : Host.Outcome State Fault Refusal :=
  .next <|
    match argumentFault s with
    | some f => raise f s
    | none => advance (writeBlk 0 (writeNblk (blockCount s.dlen) s))

/-- BLKTEST, R178: on to PACK, or the end of the command. -/
def execBlktest (s : State) : Host.Outcome State Fault Refusal :=
  .next (if s.blk < s.nblk then advance s else finish s)

/-- R34, R179: the index of BLKTEST. -/
def loopHead : BitVec 6 := 13

/-- NEXTBLK, R179. -/
def execNextblk (s : State) : Host.Outcome State Fault Refusal :=
  .next (jumpTo loopHead (writeBlk (s.blk + 1) s))

end Sys2Proof.Machine
end

