-- ==== Sys2Proof/Machine/HostCommands.lean ====
section
/-! DEFINITION. The HOST commands ENCRYPT and DECRYPT (spec 30_encoding.md R76): the command start of 47_cipher_driver.md R173, after which the sequencer runs the micro-program. -/

namespace Sys2Proof.Machine

/-- ENCRYPT, R165 by R173: start ENC_PROG. -/
def execEncrypt (s : State) : Host.Outcome State Fault Refusal :=
  unlessBusy s (.next (startCommand (encode .encrypt) s))

/-- DECRYPT, R170 by R173: start DEC_PROG. -/
def execDecrypt (s : State) : Host.Outcome State Fault Refusal :=
  unlessBusy s (.next (startCommand (encode .decrypt) s))

/-- R77, R194: a write to CMD of a value that is no command. -/
def illegalCommandWrite (v : Byte) (s : State) : Host.Outcome State Fault Refusal :=
  unlessBusy s (.next (startCommand v s))

end Sys2Proof.Machine
end

