-- ==== Sys2Proof/Machine/Galois.lean ====
section
/-! DEFINITION. The GF(2^8) multiplier (spec 40_gf_multiplier.md): the function units XTIME and GFMUL. -/

namespace Sys2Proof.Machine

/-- R90: doubling under the polynomial 0x11B; the test is on bit 7 of the operand before the shift. -/
def xtime (a : Byte) : Byte := if a.getLsbD 7 then (a <<< 1) ^^^ 0x1B else a <<< 1

/-- R78: the eight legal values of the selector. -/
def legalConstant (c : BitVec 4) : Bool := c.toNat ∈ [0, 1, 2, 3, 9, 11, 13, 14]

/-- A partial product, taken when its selector bit is 1 (R92). -/
def gated (b : Bool) (p : Byte) : Byte := if b then p else 0

/-- R92: the partial products of the selector's bits, XORed. -/
def gfProduct (a : Byte) (c : BitVec 4) : Byte :=
  gated (c.getLsbD 0) a ^^^ gated (c.getLsbD 1) (xtime a) ^^^ gated (c.getLsbD 2) (xtime (xtime a)) ^^^
    gated (c.getLsbD 3) (xtime (xtime (xtime a)))

/-- R92, R94: GFMUL. A selector outside the eight legal constants is InvariantViolation and gives no byte. -/
def gfmul (a : Byte) (c : BitVec 4) : Except CoreFault Byte :=
  if legalConstant c then .ok (gfProduct a c) else .error .invariantViolation

/-- R103: the product of two bytes in the field under 0x11B: one doubling of `a` more for each higher bit of `b`. -/
def fieldProduct (a b : Byte) : Byte :=
  gfProduct a (b.extractLsb' 0 4) ^^^ gfProduct (xtime (xtime (xtime (xtime a)))) (b.extractLsb' 4 4)

/-- R103: the affine map of the S-box construction. -/
def sboxAffine (b : Byte) : Byte :=
  b ^^^ b.rotateLeft 1 ^^^ b.rotateLeft 2 ^^^ b.rotateLeft 3 ^^^ b.rotateLeft 4 ^^^ 0x63

end Sys2Proof.Machine
end

