-- ==== Sys2Proof/Machine/KeySchedule.lean ====
section
/-! DEFINITION. The key schedule: KEYLOAD, RCONGEN, KEXPR and the function units ROTWORD and SUBWORD (spec 44_key_schedule.md). -/

namespace Sys2Proof.Machine

/-- R135: ROTWORD. -/
def rotword (w : Word) : Word := mkWord w[1] w[2] w[3] w[0]

/-- R136: SUBWORD, always with FSBOX. -/
def subword (w : Word) : Word := Vector.ofFn fun i => fsbox w[i]

/-- R28: the source's `Rcon[i]`, of which only byte 0 is stored. -/
def rconWord (rc : Byte) : Word := mkWord rc 0 0 0

/-- R133: `RC[n + 1]`, `n` doublings of 0x01. -/
def rconByte : Nat → Byte
  | 0 => 0x01
  | n + 1 => xtime (rconByte n)

/-- R132: word `i` of a 16-byte key. -/
def keyWord (k : Block) (i : Fin 4) : Word := Vector.ofFn fun j => k[4 * i.val + j.val]

/-- R131: `W[0..3]` seeded from the zero-extended key. -/
def seedWords (k : Block) (s : State) : State :=
  writeWord 3 (keyWord k 3) (writeWord 2 (keyWord k 2) (writeWord 1 (keyWord k 1) (writeWord 0 (keyWord k 0) s)))

/-- KEYLOAD, R131: K and W[0..3] from the KEYLEN bytes of KEYBUF, zero-extended. -/
def execKeyload (s : State) : Host.Outcome State Fault Refusal :=
  Res.andThen (memRead s .keybuf 0 s.keylen.toNat) fun key =>
    .next (advance (seedWords (zext16 key) (writeK (zext16 key) s)))

/-- RCONGEN, R133. -/
def execRcongen (s : State) : Host.Outcome State Fault Refusal :=
  .next (advance (writeRC (Vector.ofFn fun i => rconByte i.val) s))

/-- R138: `t`, the word the four steps start from. -/
def expandSeed (W : Expanded) (RC : Vector Byte 10) (j : Fin 10) : Word :=
  xorWord (subword (rotword W[4 * j.val + 3])) (rconWord RC[j])

/-- R138: the four words of round key `j + 1`, a chain in which each uses the one just computed. -/
def expandRound (W : Expanded) (RC : Vector Byte 10) (j : Fin 10) : Vector Word 4 :=
  let w0 := xorWord W[4 * j.val] (expandSeed W RC j)
  let w1 := xorWord W[4 * j.val + 1] w0
  let w2 := xorWord W[4 * j.val + 2] w1
  let w3 := xorWord W[4 * j.val + 3] w2
  #v[w0, w1, w2, w3]

/-- R138: write `W[4j + 4 .. 4j + 7]`, round key `j + 1`. -/
def writeRoundKey (j : Fin 10) (v : Vector Word 4) (s : State) : State :=
  writeWord ⟨4 * j.val + 7, by omega⟩ v[3]
    (writeWord ⟨4 * j.val + 6, by omega⟩ v[2]
      (writeWord ⟨4 * j.val + 5, by omega⟩ v[1] (writeWord ⟨4 * j.val + 4, by omega⟩ v[0] s)))

/-- R71, R138: the operand of KEXPR, 1 to 10, as the index of RC and of the round key before it. -/
def expandIndex (j : BitVec 4) : Option (Fin 10) :=
  if h : 1 ≤ j.toNat ∧ j.toNat ≤ 10 then some ⟨j.toNat - 1, by omega⟩ else none

/-- KEXPR j, R138. An operand that no legal word carries (R74) is refused. -/
def execKexpr (j : BitVec 4) (s : State) : Host.Outcome State Fault Refusal :=
  match expandIndex j with
  | some n => .next (advance (writeRoundKey n (expandRound s.W s.RC n) s))
  | none => .refused .operandOutOfRange

end Sys2Proof.Machine
end

