-- ==== Sys2Proof/Machine/MixColumns.lean ====
section
/-! DEFINITION. MIXCOLUMNS and INVMIXCOLUMNS (spec 43_mixcolumns.md). -/

namespace Sys2Proof.Machine

/-- A 4 by 4 matrix of GFMUL selectors; row `i` makes output row `i` (R122). -/
abbrev MixMatrix := Vector (Vector (BitVec 4) 4) 4

/-- A matrix from its rows, each written as four hexadecimal digits, column 0 first. -/
def matrixRows (r0 r1 r2 r3 : BitVec 16) : MixMatrix :=
  Vector.ofFn fun i => Vector.ofFn fun k => (#v[r0, r1, r2, r3][i]).extractLsb' (12 - 4 * k.val) 4

/-- R6, R120: MIX. -/
def mixMatrix : MixMatrix := matrixRows 0x2311 0x1231 0x1123 0x3112

/-- R6, R121: INVMIX. -/
def invMixMatrix : MixMatrix := matrixRows 0xEBD9 0x9EBD 0xD9EB 0xBD9E

/-- R120: one output byte, a matrix row times a column; a selector outside the legal set is InvariantViolation (R94). -/
def dotProduct (row : Vector (BitVec 4) 4) (a : Word) : Except CoreFault Byte := do
  let p0 ← gfmul a[0] row[0]
  let p1 ← gfmul a[1] row[1]
  let p2 ← gfmul a[2] row[2]
  let p3 ← gfmul a[3] row[3]
  return p0 ^^^ p1 ^^^ p2 ^^^ p3

/-- R120, R122: a matrix times one column. -/
def mixColumn (M : MixMatrix) (a : Word) : Except CoreFault Word := do
  let b0 ← dotProduct M[0] a
  let b1 ← dotProduct M[1] a
  let b2 ← dotProduct M[2] a
  let b3 ← dotProduct M[3] a
  return mkWord b0 b1 b2 b3

/-- R120: the four columns, each on its own, all from the old state. -/
def mixWith (M : MixMatrix) (m : Mat) : Except CoreFault Mat := do
  let c0 ← mixColumn M (Mat.col m 0)
  let c1 ← mixColumn M (Mat.col m 1)
  let c2 ← mixColumn M (Mat.col m 2)
  let c3 ← mixColumn M (Mat.col m 3)
  return Mat.ofCols #v[c0, c1, c2, c3]

/-- R120: the transform of MIXCOLUMNS. -/
def mixColumns (m : Mat) : Except CoreFault Mat := mixWith mixMatrix m

/-- R121: the transform of INVMIXCOLUMNS. -/
def invMixColumns (m : Mat) : Except CoreFault Mat := mixWith invMixMatrix m

/-- MIXCOLUMNS, R120. -/
def execMixcolumns (s : State) : Host.Outcome State Fault Refusal :=
  .next (writeSOrRaise .mixcolumns (mixColumns s.S) s)

/-- INVMIXCOLUMNS, R121. -/
def execInvmixcolumns (s : State) : Host.Outcome State Fault Refusal :=
  .next (writeSOrRaise .invmixcolumns (invMixColumns s.S) s)

end Sys2Proof.Machine
end

