-- ==== Sys2Proof/Machine/ShiftRows.lean ====
section
/-! DEFINITION. SHIFTROWS and INVSHIFTROWS (spec 42_shiftrows.md). Column indices are taken mod 4, as arithmetic of `Fin 4` is. -/

namespace Sys2Proof.Machine

/-- R110: row `r` rotated left by `r`. -/
def shiftRows (m : Mat) : Mat := Mat.ofFn fun r c => Mat.at m r (c + r)

/-- R111: row `r` rotated right by `r`. -/
def invShiftRows (m : Mat) : Mat := Mat.ofFn fun r c => Mat.at m r (c - r)

/-- SHIFTROWS, R110. -/
def execShiftrows (s : State) : Host.Outcome State Fault Refusal :=
  .next (writeS .shiftrows (shiftRows s.S) s)

/-- INVSHIFTROWS, R111. -/
def execInvshiftrows (s : State) : Host.Outcome State Fault Refusal :=
  .next (writeS .invshiftrows (invShiftRows s.S) s)

end Sys2Proof.Machine
end

