-- ==== Sys2Proof/Machine/SubBytes.lean ====
section
/-! DEFINITION. SUBBYTES and INVSUBBYTES (spec 41_sbox.md). -/

namespace Sys2Proof.Machine

/-- R104: every byte replaced by its FSBOX entry. -/
def subBytes (m : Mat) : Mat := Mat.ofFn fun r c => fsbox (Mat.at m r c)

/-- R105: every byte replaced by its ISBOX entry. -/
def invSubBytes (m : Mat) : Mat := Mat.ofFn fun r c => isbox (Mat.at m r c)

/-- SUBBYTES, R104. -/
def execSubbytes (s : State) : Host.Outcome State Fault Refusal :=
  .next (writeS .subbytes (subBytes s.S) s)

/-- INVSUBBYTES, R105. -/
def execInvsubbytes (s : State) : Host.Outcome State Fault Refusal :=
  .next (writeS .invsubbytes (invSubBytes s.S) s)

end Sys2Proof.Machine
end

