-- ==== Sys2Proof/Machine/HostPort.lean ====
section
/-! DEFINITION. The HOST's accesses other than a command (spec 10_state.md R41, R42; 20_memory.md R50; 60_exceptions.md R201) and reset (70_reset_and_hazards.md R220). -/

namespace Sys2Proof.Machine

/-- Record what a HOST read returns (log 9). A read changes nothing else (R59). -/
def answer (n : Nat) (s : State) : State := { s with answers := s.answers ++ [n] }

/-- R41: what a control register reads as; CR6 and above do not exist. -/
def readControl (s : State) (cr : Nat) : Option Nat :=
  match cr with
  | 0 => some s.cmd.toNat
  | 1 => some s.status.toNat
  | 2 => some s.keylen.toNat
  | 3 => some s.dlen
  | 4 => some s.olen
  | 5 => some s.ctrl.toNat
  | _ => none

/-- R201, R36: STATUS is readable at any time, the other registers while STATE is not BUSY. -/
def hostReadCr (cr : Nat) (s : State) : Res State :=
  if s.phase = .busy ∧ cr ≠ 1 then .refused .hostWhileBusy
  else
    match readControl s cr with
    | some n => .next (answer n s)
    | none => .refused .hostNoPath

/-- R25: KEYLEN for a key of `n` bytes; a key longer than 255 bytes is written as 255. -/
def keylenOf (n : Nat) : Byte := BitVec.ofNat 8 (min n 255)

/-- R38: a write of DLEN; a message longer than DMAX is refused. -/
def writeDlen (n : Nat) (s : State) : Res State :=
  if s.params.size.admits n then .next { s with dlen := n, held := { s.held with dlen := true } }
  else .refused .messageTooLong

/-- R41: a write of a control register other than CMD. STATUS and OLEN ignore it. -/
def writeControl (cr v : Nat) (s : State) : Res State :=
  match cr with
  | 1 => .next s
  | 2 => .next { s with keylen := keylenOf v, held := { s.held with keylen := true } }
  | 3 => writeDlen v s
  | 4 => .next s
  | 5 =>
    if v < 256 then .next { s with traceEn := traceEnable s.params (BitVec.ofNat 8 v) }
    else .refused .hostNoPath
  | _ => .refused .hostNoPath

/-- R24, R42, R50: a HOST write of one byte of KEYBUF or DIN; the HOST writes no other space. -/
def hostWriteSpace (sp : Space) (a : Nat) (b : Byte) (s : State) : Res State :=
  match sp with
  | .keybuf | .din => memWrite s sp a [b]
  | .dout | .fsbox | .isbox | .encProg | .decProg => .refused .hostNoPath

/-- R42, R59: a HOST read of DOUT is of a valid byte when STATE is DONE and the offset is below OLEN; any other byte holds
no value for the HOST (U5, log 10). The HOST reads no other space. -/
def hostReadSpace (sp : Space) (a : Nat) (s : State) : Res State :=
  match sp with
  | .dout =>
    if s.phase = .done ∧ a < s.olen then
      Res.andThen (memRead s .dout a 1) fun bs => .next (answer (bs.getD 0 0).toNat s)
    else .fault .unwrittenRead
  | .keybuf | .din | .fsbox | .isbox | .encProg | .decProg => .refused .hostNoPath

/-- A HOST access that is no command (R41). The only one while STATE is BUSY is a read of STATUS (R201). -/
def hostAccess (m : HostMove) (s : State) : Res State :=
  match m with
  | .readCr cr => hostReadCr cr s
  | .writeCr cr v => unlessBusy s (writeControl cr v s)
  | .writeSpace sp a b => unlessBusy s (hostWriteSpace sp a b s)
  | .readSpace sp a => unlessBusy s (hostReadSpace sp a s)

/-- R35, R75: the byte a HOST move writes to CMD, if it writes CMD. -/
def commandByte : HostMove → Option Byte
  | .writeCr 0 v => if v < 256 then some (BitVec.ofNat 8 v) else none
  | .writeCr _ _ | .readCr _ | .writeSpace _ _ _ | .readSpace _ _ => none

/-- R197: what the HOST interface returns to its caller: the failure, or the bytes DOUT[0 .. OLEN-1]; nothing before
the command has ended. -/
def hostResult (s : State) : Option (Except CoreFault (List Byte)) :=
  match s.phase with
  | .idle | .busy => none
  | .done => (collect (s.byteAt .dout) 0 s.olen).map Except.ok
  | .fault => s.err.map Except.error

/-- R220: reset, also in the middle of a command. The ROMs and the parameters stay; the events to come and the records of
what was read and emitted are the outside's, and stay (log 9). -/
def resetCore (s : State) : State :=
  { State.reset with
    encProg := s.encProg, decProg := s.decProg, params := s.params
    sched := s.sched, answers := s.answers, trace := s.trace, free := s.free }

end Sys2Proof.Machine
end

