-- ==== Sys2Proof/Machine/Sequencer.lean ====
section
/-! DEFINITION. The sequencer's fetch (spec 47_cipher_driver.md R174; 20_memory.md R66) and where a word is placed to be fetched. -/

namespace Sys2Proof.Machine

/-- R32: the ROM that PROG selects. -/
def ProgSel.space : ProgSel → Space
  | .enc => .encProg
  | .dec => .decProg

/-- R174: `w = ROM[PROG][UPC]`; none when UPC is above 56 (R34, R195). -/
def fetchWord (s : State) : Option Byte := s.byteAt s.prog.space s.upc.toNat

/-- R73, R174: the micro-op the next step of a running command performs; none is IllegalMicroOp (R195). -/
def fetched (s : State) : Option Instr :=
  match fetchWord s with
  | some w =>
    match decodeMicro w with
    | .ok i => some i
    | .error _ => none
  | none => none

/-- A command running whose next fetch, at index 0 of ENC_PROG, reads `w` (log 6). -/
def placeMicroWord (s : State) (w : Byte) : State :=
  { s with
    phase := .busy, err := none, sched := []
    prog := .enc, upc := 0, held := { s.held with prog := true, upc := true }
    encProg := s.encProg.set 0 w }

/-- A HOST write of `v` to CMD as the next event, no command running (log 6). -/
def placeCommand (s : State) (v : Byte) : State :=
  { s with
    phase := if s.phase = .busy then .idle else s.phase
    sched := .host (.writeCr 0 v.toNat) :: s.sched }

/-- A byte that is a command and no micro-op word is placed as a command, any other as a micro-op word (R83). -/
def placeByte (s : State) (w : Byte) : State :=
  match decodeMicro w, decodeCommand w with
  | .error _, .ok _ => placeCommand s w
  | _, _ => placeMicroWord s w

end Sys2Proof.Machine
end

