-- ==== Sys2Proof/Machine/Turns.lean ====
section
/-! DEFINITION. What the CORE does in its turn (spec 47_cipher_driver.md R174) and what a HOST access does (10_state.md R41). -/

namespace Sys2Proof.Machine

/-- R174: the sequencer's step while STATE is BUSY; the CORE takes no step otherwise (R182). -/
def coreTurn (s : State) : Res State :=
  if s.phase = .busy then
    match fetched s with
    | some i => exec i s
    | none => .next (raise .illegalMicroOp s)
  else .next s

/-- R173: a HOST write of `v` to CMD. -/
def commandWrite (v : Byte) (s : State) : Res State :=
  match decodeCommand v with
  | .ok i => exec i s
  | .error _ => illegalCommandWrite v s

/-- One HOST access (R41): a command, or any other. -/
def hostTurn (m : HostMove) (s : State) : Res State :=
  match commandByte m with
  | some v => commandWrite v s
  | none => hostAccess m s

end Sys2Proof.Machine
end

