-- ==== Sys2Proof/Machine/Step.lean ====
section
/-! DEFINITION. One step of the machine: the next event of the schedule (log 7). -/

namespace Sys2Proof.Machine

/-- One step: the next event; with none pending it is the CORE's turn. -/
def step (s : State) : Host.Outcome State Fault Refusal :=
  match s.sched with
  | [] => coreTurn s
  | .core :: rest => coreTurn { s with sched := rest }
  | .host m :: rest => hostTurn m { s with sched := rest }
  | .reset :: rest => .next (resetCore { s with sched := rest })

/-- `s` with the instruction of the table word `w` placed so that the next step runs it (log 6); a word longer than the
longest instruction is placed nowhere. -/
def State.withFetchWord (s : State) (nbits w : Nat) : State :=
  match tableByte nbits w with
  | some b => placeByte s b
  | none => s

end Sys2Proof.Machine
end

