-- ==== Sys2Proof/Machine/Cipher.lean ====
section
/-! DEFINITION. The transaction level: the two commands as functions of their inputs (spec 47_cipher_driver.md R165, R166, R170, R171; 44_key_schedule.md R137). The step does not use it; R183 says that the two levels agree. -/

namespace Sys2Proof.Machine

/-- R137, at index `i` of 4 to 43: the word the recurrence gives from the words before it. -/
def recurrenceWord (W : Expanded) (i : Fin 44) : Word :=
  if i.val % 4 = 0 then
    xorWord W[i.val - 4] (xorWord (subword (rotword W[i.val - 1])) (rconWord (rconByte (i.val / 4 - 1))))
  else xorWord W[i.val - 4] W[i.val - 1]

/-- R137: one step of the recurrence. -/
def recurrenceStep (W : Expanded) (i : Nat) : Expanded :=
  if h : i < 44 then W.set i (recurrenceWord W ⟨i, h⟩) else W

/-- R132: the words that hold the key itself; the others are still to be computed. -/
def seedExpanded (k : Block) : Expanded :=
  Vector.ofFn fun i => if h : i.val < 4 then keyWord k ⟨i.val, h⟩ else mkWord 0 0 0 0

/-- R137, R139: the ExpandedKey of a 16-byte key, `i` from 4 to 43 in increasing order. -/
def expandKey (k : Block) : Expanded := (List.range' 4 40).foldl recurrenceStep (seedExpanded k)

/-- R166: one of the rounds 1 to 9. -/
def encRound (W : Expanded) (m : Mat) (r : Fin 11) : Except CoreFault Mat := do
  let x ← mixColumns (shiftRows (subBytes m))
  return addRoundKey (roundKey W r) x

/-- R166: EncBlock. -/
def encBlock (b : Block) (W : Expanded) : Except CoreFault Block := do
  let m ← [1, 2, 3, 4, 5, 6, 7, 8, 9].foldlM (encRound W) (addRoundKey (roundKey W 0) (packBlock b))
  return unpackMat (addRoundKey (roundKey W 10) (shiftRows (subBytes m)))

/-- R171: one of the rounds 9 down to 1. -/
def decRound (W : Expanded) (m : Mat) (r : Fin 11) : Except CoreFault Mat := do
  let x ← invMixColumns (addRoundKey (roundKey W r) m)
  return invSubBytes (invShiftRows x)

/-- R171: DecBlock. -/
def decBlock (b : Block) (W : Expanded) : Except CoreFault Block := do
  let m ← [9, 8, 7, 6, 5, 4, 3, 2, 1].foldlM (decRound W)
    (invSubBytes (invShiftRows (addRoundKey (roundKey W 10) (packBlock b))))
  return unpackMat (addRoundKey (roundKey W 0) m)

/-- R55, R165: block `b` of a message, zero-filled where the message has no byte. -/
def messageBlock (p : List Byte) (b : Nat) : Block := zext16 ((p.drop (16 * b)).take 16)

/-- R165: each of the blocks on its own, the results in the original order. -/
def eachBlock (f : Block → Except CoreFault Block) (p : List Byte) : Except CoreFault (List Byte) := do
  let out ← (List.range (blockCount p.length)).mapM fun b => f (messageBlock p b)
  return (out.map Vector.toList).flatten

/-- R165: ENCRYPT of the plaintext `p` under the supplied key bytes. -/
def encryptMessage (p key : List Byte) : Except CoreFault (List Byte) :=
  if 16 < key.length then .error .keyTooLarge
  else eachBlock (fun b => encBlock b (expandKey (zext16 key))) p

/-- R170: DECRYPT of the ciphertext `c` under the supplied key bytes. -/
def decryptMessage (c key : List Byte) : Except CoreFault (List Byte) :=
  if 16 < key.length then .error .keyTooLarge
  else if c.length % 16 ≠ 0 then .error .lengthNotMultiple
  else eachBlock (fun b => decBlock b (expandKey (zext16 key))) c

end Sys2Proof.Machine
end

