-- ==== Sys2Proof/Machine/Listing.lean ====
section
/-! DEFINITION. The pseudo-instructions of spec 30_encoding.md R82 and the two micro-programs as listings (47_cipher_driver.md R175, R176). -/

namespace Sys2Proof.Machine

/-- R82: KEYSCHED. -/
def keysched : List Instr := [.keyload, .rcongen] ++ ([1, 2, 3, 4, 5, 6, 7, 8, 9, 10] : List (BitVec 4)).map .kexpr

/-- R82: ROUND r. -/
def roundOps (r : BitVec 4) : List Instr := [.subbytes, .shiftrows, .mixcolumns, .addroundkey r]

/-- R82: FINALROUND. -/
def finalRound : List Instr := [.subbytes, .shiftrows, .addroundkey 10]

/-- R82: ENCBLOCK. -/
def encBlockOps : List Instr :=
  [.addroundkey 0] ++ ([1, 2, 3, 4, 5, 6, 7, 8, 9] : List (BitVec 4)).flatMap roundOps ++ finalRound

/-- R82: INVFIRST. -/
def invFirst : List Instr := [.addroundkey 10, .invshiftrows, .invsubbytes]

/-- R82: INVROUND r. -/
def invRoundOps (r : BitVec 4) : List Instr := [.addroundkey r, .invmixcolumns, .invshiftrows, .invsubbytes]

/-- R82: DECBLOCK. -/
def decBlockOps : List Instr :=
  invFirst ++ ([9, 8, 7, 6, 5, 4, 3, 2, 1] : List (BitVec 4)).flatMap invRoundOps ++ [.addroundkey 0]

/-- R175, R176: a micro-program, the block's transforms standing between PACK and UNPACK. -/
def microProgram (blockOps : List Instr) : List Instr :=
  [.chkargs] ++ keysched ++ [.blktest, .pack] ++ blockOps ++ [.unpack, .nextblk]

end Sys2Proof.Machine
end

