-- ==== Sys2Proof/Safety.lean ====
section
/-! DEFINITION. The terms claims use: the reads of spec 10_state.md R21 and the step that faults on them, the frames of the instructions, the invariants of the machine and of a running command. -/

namespace Sys2Proof.Machine

/-! ### Reads of registers that hold no value (R21) -/

/-- Whether the words `W[4n] .. W[4n + 3]` hold a value. -/
def Held.roundKey (h : Held) (n : Fin 11) : Bool :=
  h.W[4 * n.val] && h.W[4 * n.val + 1] && h.W[4 * n.val + 2] && h.W[4 * n.val + 3]

/-- R20, R23, R30, R31: whether every register the instruction reads holds a value. -/
def readsHeld (i : Instr) (s : State) : Bool :=
  match i with
  | .keyload => s.held.keylen
  | .rcongen => true
  | .kexpr j =>
    match expandIndex j with
    | some n => s.held.RC && s.held.roundKey ⟨n.val, by omega⟩
    | none => true
  | .pack => s.held.dlen && s.held.blk
  | .unpack => s.held.S && s.held.blk
  | .addroundkey r => s.held.S && (if h : r.toNat < 11 then s.held.roundKey ⟨r.toNat, h⟩ else true)
  | .subbytes | .invsubbytes | .shiftrows | .invshiftrows | .mixcolumns | .invmixcolumns => s.held.S
  | .blktest => s.held.blk && s.held.nblk
  | .nextblk => s.held.blk
  | .chkargs => s.held.keylen && s.held.dlen && s.held.prog
  | .encrypt | .decrypt => true

/-- Whether the sequencer's next step, fetch included, reads only registers that hold a value. -/
def fetchHeld (s : State) : Bool :=
  s.held.prog && s.held.upc &&
    match fetched s with
    | some i => readsHeld i s
    | none => true

/-- Whether the next event is the CORE's turn. -/
def coreMoves (s : State) : Bool :=
  match s.sched with
  | [] | .core :: _ => true
  | .host _ :: _ | .reset :: _ => false

/-- It is the CORE's turn, and `rest` is what the schedule holds after it. -/
def CoreNext (s : State) (rest : List Event) : Prop := s.sched = [] ∧ rest = [] ∨ s.sched = .core :: rest

/-- R21 in full: the step that faults with UnwrittenRead where `step` goes on with the contents of a register that holds
no value (log 1). It differs from `step` there and nowhere else. -/
def strictStep (s : State) : Res State :=
  if coreMoves s = true ∧ s.phase = .busy ∧ fetchHeld s = false then .fault .unwrittenRead else step s

/-! ### Frames -/

/-- Every byte of every space reads as before. -/
def SameMemory (s t : State) : Prop := ∀ sp a, t.byteAt sp a = s.byteAt sp a

/-- Every byte reads as before but the `n` bytes of DOUT from `base` on. -/
def SameMemoryBut (base n : Nat) (s t : State) : Prop :=
  (∀ a, a < base ∨ base + n ≤ a → t.byteAt .dout a = s.byteAt .dout a) ∧
    ∀ sp, sp ≠ .dout → ∀ a, t.byteAt sp a = s.byteAt sp a

/-- Everything of the state but S, UPC, the trace port's output and what holds a value. -/
def SameButS (s t : State) : Prop :=
  t = { s with S := t.S, upc := t.upc, trace := t.trace, held := t.held } ∧ SameMemory s t

/-- The frame of a micro-op that writes S: nothing else changes but the UPC, which advances, and the trace port's output;
S now holds a value and no other register gains or loses one. -/
def TransformFrame (i : Instr) (s t : State) : Prop :=
  SameButS s t ∧ t.upc = s.upc + 1 ∧ t.held = { s.held with S := true, upc := true } ∧
    t.trace = s.trace ++ traceEvents s i t.S

/-- R47: the internal registers K, RC, W, S, PROG, UPC, BLK and NBLK hold no value; KEYLEN and DLEN are as before. -/
def InternalsDropped (s t : State) : Prop :=
  t.held = { Held.nothing with keylen := s.held.keylen, dlen := s.held.dlen }

/-- The frame of a step that ends a command: only STATUS, OLEN and the internal registers (which hold no value, R47), the
free-value counter among them, may differ. -/
def EndFrame (s t : State) : Prop :=
  t = { s with phase := t.phase, err := t.err, olen := t.olen, K := t.K, RC := t.RC, W := t.W, S := t.S,
               prog := t.prog, upc := t.upc, blk := t.blk, nblk := t.nblk, held := t.held, free := t.free } ∧
    InternalsDropped s t ∧ SameMemory s t

/-- R60: what the CORE never writes. -/
structure SameInputs (s t : State) : Prop where
  keybuf : ∀ a, t.byteAt .keybuf a = s.byteAt .keybuf a
  din : ∀ a, t.byteAt .din a = s.byteAt .din a
  keylen : t.keylen = s.keylen
  dlen : t.dlen = s.dlen
  cmd : t.cmd = s.cmd
  ctrl : t.traceEn = s.traceEn

/-! ### Invariants -/

/-- The invariant of the machine, whatever its ROM images hold. -/
structure State.Inv (s : State) : Prop where
  /-- the buffers keep their canonical form -/
  keybuf_wf : Memory.wf s.keybuf
  din_wf : Memory.wf s.din
  dout_wf : Memory.wf s.dout
  /-- R50: no byte lies outside its space -/
  keybuf_in : ∀ c ∈ s.keybuf, s.inSpace .keybuf c.1 1 = true
  din_in : ∀ c ∈ s.din, s.inSpace .din c.1 1 = true
  dout_in : ∀ c ∈ s.dout, s.inSpace .dout c.1 1 = true
  /-- R36: ERR is non-zero exactly when STATE is FAULT -/
  err_iff : s.err.isSome = true ↔ s.phase = .fault
  /-- R39: OLEN is 0 unless STATE is DONE -/
  olen_zero : s.phase ≠ .done → s.olen = 0
  /-- R39: OLEN is always a multiple of 16 -/
  olen_mult : s.olen % 16 = 0
  /-- R38: DLEN is at most DMAX -/
  dlen_fits : s.params.size.admits s.dlen = true
  /-- R40: TRACE_EN is hard-wired 0 where there is no trace port -/
  trace_en : s.traceEn = true → s.params.tracePort = true
  /-- R21, R47: outside a command the internal registers hold no value -/
  internals : s.phase ≠ .busy → InternalsDropped s s
  /-- R173: during a command PROG and UPC hold a value -/
  control : s.phase = .busy → s.held.prog = true ∧ s.held.upc = true

/-- R181: how many words of W hold a value when the sequencer is about to run index `u`. -/
def wordsReady (u : Nat) : Nat := if u < 2 then 0 else if u = 2 then 4 else min 44 (4 * (u - 2))

/-- What holds during a command when the sequencer is about to run index UPC of the constant ROMs (R34, R177 to R181). -/
structure RunInv (s : State) : Prop where
  upc_le : s.upc.toNat ≤ 56
  started : 1 ≤ s.upc.toNat → s.held.blk = true ∧ s.held.nblk = true ∧ s.keylen.toNat ≤ 16 ∧
    s.nblk = blockCount s.dlen ∧ s.blk ≤ s.nblk ∧ (s.prog = .dec → s.dlen % 16 = 0) ∧
    ∀ a, a < 16 * s.blk → (s.byteAt .dout a).isSome = true
  key : 2 ≤ s.upc.toNat → s.held.K = true
  rc : 3 ≤ s.upc.toNat → s.held.RC = true
  words : ∀ i : Fin 44, i.val < wordsReady s.upc.toNat → s.held.W[i] = true
  block : 14 ≤ s.upc.toNat → s.blk < s.nblk
  state : 15 ≤ s.upc.toNat → s.upc.toNat ≤ 55 → s.held.S = true
  stored : s.upc.toNat = 56 → ∀ a, a < 16 * s.blk + 16 → (s.byteAt .dout a).isSome = true

/-- The invariant of a machine whose ROMs hold their constant contents (R45, R46). -/
structure CommandInv (s : State) : Prop where
  inv : s.Inv
  size_wf : s.params.size.wf = true
  enc : s.encProg = encProgram
  dec : s.decProg = decProgram
  /-- R39: OLEN is at most DMAX -/
  olen_fits : s.params.size.admits s.olen = true
  /-- R59: at DONE every byte of the result is valid -/
  result : s.phase = .done → ∀ a, a < s.olen → (s.byteAt .dout a).isSome = true
  run : s.phase = .busy → RunInv s

/-- The arguments of a command are in place (R222): no command is running, the ROMs hold their constants, it is the CORE's
turn, `msg` is the DLEN bytes of DIN, and `key` is the supplied key of KEYLEN bytes, in KEYBUF where it is not too large. -/
structure CommandReady (s : State) (key msg : List Byte) : Prop where
  ended : s.phase ≠ .busy
  turn : s.sched = []
  enc : s.encProg = encProgram
  dec : s.decProg = decProgram
  size_wf : s.params.size.wf = true
  fits : s.params.size.admits s.dlen = true
  key_length : key.length = s.keylen.toNat
  key_bytes : s.keylen.toNat ≤ 16 → collect (s.byteAt .keybuf) 0 s.keylen.toNat = some key
  msg_bytes : collect (s.byteAt .din) 0 s.dlen = some msg

/-- R181: the micro-ops of a command that does not fault. -/
def commandLength (s : State) : Nat := 14 + 44 * blockCount s.dlen

/-- The instructions of a list, one after the other (R63 a). -/
def execAll : List Instr → State → Res State
  | [], s => .next s
  | i :: is, s => Res.andThen (exec i s) (execAll is)

/-- R23: the micro-ops that write S. -/
def writesState : Instr → Bool
  | .pack | .addroundkey _ | .subbytes | .invsubbytes | .shiftrows | .invshiftrows | .mixcolumns | .invmixcolumns => true
  | .keyload | .rcongen | .kexpr _ | .unpack | .blktest | .nextblk | .chkargs | .encrypt | .decrypt => false

end Sys2Proof.Machine
end

