-- ==== Sys2Proof/Certificates/Slice0/Obligations.lean ====
section
/-! DEFINITION. The statements for the provers: what the instructions and the machine do, from the numbered rules of spec/. -/

open Sys2Proof Sys2Proof.Machine

/-! ### Encoding -/

/-- R72, R76: words written out from the map decode to the instructions they stand for. -/
def Obligations.KnownWordsDecode : Prop :=
  (∀ p ∈ ([(0x10, .keyload), (0x20, .rcongen), (0x31, .kexpr 1), (0x3A, .kexpr 10), (0x40, .pack), (0x50, .unpack),
      (0x60, .addroundkey 0), (0x6A, .addroundkey 10), (0x70, .subbytes), (0x80, .invsubbytes), (0x90, .shiftrows),
      (0xA0, .invshiftrows), (0xB0, .mixcolumns), (0xC0, .invmixcolumns), (0xD0, .blktest), (0xE0, .nextblk),
      (0xF0, .chkargs)] : List (Byte × Instr)), decodeMicro p.1 = .ok p.2) ∧
    decodeCommand 0x01 = .ok .encrypt ∧ decodeCommand 0x02 = .ok .decrypt

/-- R70 to R76: decoding the word of any well-formed instruction gives it back, each format in its own decoder. -/
def Obligations.DecodeOfEncode : Prop :=
  ∀ i : Instr, i.wf = true →
    (i.format = .microOp → decodeMicro (encode i) = .ok i) ∧ (i.format = .hostCommand → decodeCommand (encode i) = .ok i)

/-- R73, R76: a byte decodes to an instruction only if it is the word of that instruction, well formed. -/
def Obligations.DecodedWordsAreEncodings : Prop :=
  ∀ (w : Byte) (i : Instr),
    (decodeMicro w = .ok i → i.format = .microOp ∧ i.wf = true ∧ encode i = w) ∧
    (decodeCommand w = .ok i → i.format = .hostCommand ∧ i.wf = true ∧ encode i = w)

/-- R74: the four kinds of illegal words and no other word are rejected, 222 in all; fetching one raises IllegalMicroOp;
neither micro-program contains one. -/
def Obligations.IllegalMicroWords : Prop :=
  (∀ w : Byte, decodeMicro w = .error (.illegalMicroOp w) ↔
    (opField w).toNat = 0 ∨
    ((opField w).toNat ≠ 0 ∧ (opField w).toNat ≠ 3 ∧ (opField w).toNat ≠ 6 ∧ (argField w).toNat ≠ 0) ∨
    ((opField w).toNat = 3 ∧ ((argField w).toNat = 0 ∨ 10 < (argField w).toNat)) ∨
    ((opField w).toNat = 6 ∧ 10 < (argField w).toNat)) ∧
  ((List.range 256).countP fun n => decide (decodeMicro (BitVec.ofNat 8 n) = .error (.illegalMicroOp (BitVec.ofNat 8 n)))) = 222 ∧
  (∀ (s : State) (w : Byte) (rest : List Event), s.phase = .busy → CoreNext s rest → fetchWord s = some w →
    decodeMicro w = .error (.illegalMicroOp w) → step s = .next (raise .illegalMicroOp { s with sched := rest })) ∧
  ∀ u : Fin 57, (∃ i, decodeMicro encProgram[u] = .ok i) ∧ ∃ i, decodeMicro decProgram[u] = .ok i

/-- R77: every command code but 0x01 and 0x02 is illegal: written to CMD while no command runs it raises IllegalCommand
and no micro-op runs. -/
def Obligations.IllegalCommandCodes : Prop :=
  ∀ (s : State) (v : Byte) (rest : List Event), s.phase ≠ .busy → s.sched = .host (.writeCr 0 v.toNat) :: rest →
    v ≠ 0x01 → v ≠ 0x02 →
    ∃ t, step s = .next t ∧ t.cmd = v ∧ t.phase = .fault ∧ t.err = some .illegalCommand ∧ t.olen = 0 ∧ t.sched = rest ∧
      SameMemory s t

/-- R175, R176, R82: the two ROMs are the listings CHKARGS; KEYSCHED; BLKTEST; PACK; ENCBLOCK or DECBLOCK; UNPACK;
NEXTBLK. -/
def Obligations.MicroProgramsAreListings : Prop :=
  decodeProgram encProgram.toList = .ok (microProgram encBlockOps) ∧
  decodeProgram decProgram.toList = .ok (microProgram decBlockOps)

/-! ### The multiplier and the S-boxes -/

/-- R90: XTIME, with its corner cases; it is a permutation of the bytes. -/
def Obligations.XtimeDoubles : Prop :=
  (∀ a : Byte, xtime a = if a.toNat < 0x80 then BitVec.ofNat 8 (2 * a.toNat) else BitVec.ofNat 8 (2 * a.toNat) ^^^ 0x1B) ∧
  xtime 0x00 = 0x00 ∧ xtime 0x7F = 0xFE ∧ xtime 0x80 = 0x1B ∧ xtime 0xFF = 0xE5 ∧ xtime 0x57 = 0xAE ∧ xtime 0xAE = 0x47 ∧
  Function.Bijective xtime

/-- R93: GFMUL spelled out for each of the eight legal constants, with its corner cases. -/
def Obligations.GfmulPerConstant : Prop :=
  (∀ a : Byte,
    gfmul a 0 = .ok 0x00 ∧ gfmul a 1 = .ok a ∧ gfmul a 2 = .ok (xtime a) ∧ gfmul a 3 = .ok (xtime a ^^^ a) ∧
    gfmul a 9 = .ok (xtime (xtime (xtime a)) ^^^ a) ∧
    gfmul a 11 = .ok (xtime (xtime (xtime a)) ^^^ xtime a ^^^ a) ∧
    gfmul a 13 = .ok (xtime (xtime (xtime a)) ^^^ xtime (xtime a) ^^^ a) ∧
    gfmul a 14 = .ok (xtime (xtime (xtime a)) ^^^ xtime (xtime a) ^^^ xtime a)) ∧
  ∀ c : BitVec 4, legalConstant c = true → gfmul 0x00 c = .ok 0x00 ∧ gfmul 0x01 c = .ok (c.setWidth 8)

/-- R94: the eight other selectors raise InvariantViolation and give no byte; a column multiplication that meets one gives
no state, the micro-op that met it takes the fault and does not write S; the matrices of MIXCOLUMNS and INVMIXCOLUMNS hold
none. -/
def Obligations.UnsupportedConstantFails : Prop :=
  (∀ (a : Byte) (c : BitVec 4), c.toNat ∈ [4, 5, 6, 7, 8, 10, 12, 15] → gfmul a c = .error .invariantViolation) ∧
  (∀ (M : MixMatrix) (m : Mat) (i k : Fin 4), legalConstant (M[i])[k] = false →
    mixWith M m = .error .invariantViolation) ∧
  (∀ (s : State) (i : Instr) (f : CoreFault),
    exec .mixcolumns s = .next (writeSOrRaise .mixcolumns (mixWith mixMatrix s.S) s) ∧
    exec .invmixcolumns s = .next (writeSOrRaise .invmixcolumns (mixWith invMixMatrix s.S) s) ∧
    writeSOrRaise i (.error f) s = raise f s) ∧
  ∀ i k : Fin 4, legalConstant (mixMatrix[i])[k] = true ∧ legalConstant (invMixMatrix[i])[k] = true

/-- R96: the laws of GFMUL the other rules rely on. -/
def Obligations.GfmulLaws : Prop :=
  (∀ (a b : Byte) (c : BitVec 4), legalConstant c = true →
    ∃ x y, gfmul a c = .ok x ∧ gfmul b c = .ok y ∧ gfmul (a ^^^ b) c = .ok (x ^^^ y)) ∧
  (∀ a : Byte,
    gfProduct a 3 = gfProduct a 2 ^^^ gfProduct a 1 ∧ gfProduct a 11 = gfProduct a 9 ^^^ gfProduct a 2 ∧
    gfProduct a 13 ^^^ gfProduct a 14 = gfProduct a 3 ∧ gfProduct a 9 ^^^ gfProduct a 11 = gfProduct a 2) ∧
  (∀ c : BitVec 4, legalConstant c = true → c ≠ 0 → Function.Bijective fun a => gfProduct a c) ∧
  (∀ a : Byte,
    gfProduct (gfProduct a 2) 14 ^^^ gfProduct (gfProduct a 1) 11 ^^^ gfProduct (gfProduct a 1) 13 ^^^
      gfProduct (gfProduct a 3) 9 = a ∧
    gfProduct (gfProduct a 3) 14 ^^^ gfProduct (gfProduct a 2) 11 ^^^ gfProduct (gfProduct a 1) 13 ^^^
      gfProduct (gfProduct a 1) 9 = 0 ∧
    gfProduct (gfProduct a 1) 14 ^^^ gfProduct (gfProduct a 3) 11 ^^^ gfProduct (gfProduct a 2) 13 ^^^
      gfProduct (gfProduct a 1) 9 = 0 ∧
    gfProduct (gfProduct a 1) 14 ^^^ gfProduct (gfProduct a 1) 11 ^^^ gfProduct (gfProduct a 3) 13 ^^^
      gfProduct (gfProduct a 2) 9 = 0) ∧
  ∀ (a : Byte) (c : BitVec 4), legalConstant c = true → gfmul a c = .ok (gfProduct a c)

/-- R100: the two tables are exact mutual inverses, hence permutations of the bytes. R103: every entry of FSBOX is the
affine map of the inverse of its index in the field, which fixes both tables. The entries and their construction are
PRESUMED (log 14). -/
def Obligations.SboxesAreInverse : Prop :=
  (∀ x : Byte, ∃ b : Byte, (x = 0x00 → b = 0x00) ∧ (x ≠ 0x00 → fieldProduct x b = 0x01) ∧ fsbox x = sboxAffine b) ∧
  (∀ x : Byte, isbox (fsbox x) = x) ∧ (∀ y : Byte, fsbox (isbox y) = y) ∧
  Function.Bijective fsbox ∧ Function.Bijective isbox

/-- R106: each of SUBBYTES and INVSUBBYTES undoes the other, for every state; R107, first sentence: both commute with any
rearrangement of the 16 positions, SHIFTROWS and INVSHIFTROWS among them. -/
def Obligations.SubBytesLaws : Prop :=
  ∀ m : Mat, invSubBytes (subBytes m) = m ∧ subBytes (invSubBytes m) = m ∧
    (∀ f : Fin 4 → Fin 4 → Fin 4 × Fin 4,
      subBytes (Mat.ofFn fun r c => Mat.at m (f r c).1 (f r c).2) =
        Mat.ofFn (fun r c => Mat.at (subBytes m) (f r c).1 (f r c).2) ∧
      invSubBytes (Mat.ofFn fun r c => Mat.at m (f r c).1 (f r c).2) =
        Mat.ofFn (fun r c => Mat.at (invSubBytes m) (f r c).1 (f r c).2)) ∧
    shiftRows (subBytes m) = subBytes (shiftRows m) ∧ invSubBytes (invShiftRows m) = invShiftRows (invSubBytes m)

/-- R112, R113: SHIFTROWS and INVSHIFTROWS undo each other, for every state; both move bytes within a row only, and four
of either give the original state. -/
def Obligations.ShiftRowsLaws : Prop :=
  ∀ m : Mat,
    invShiftRows (shiftRows m) = m ∧ shiftRows (invShiftRows m) = m ∧
    (∀ r, (∃ p : Equiv.Perm (Fin 4), ∀ c, Mat.at (shiftRows m) r c = Mat.at m r (p c)) ∧
      ∃ p : Equiv.Perm (Fin 4), ∀ c, Mat.at (invShiftRows m) r c = Mat.at m r (p c)) ∧
    shiftRows (shiftRows (shiftRows (shiftRows m))) = m ∧
    invShiftRows (invShiftRows (invShiftRows (invShiftRows m))) = m

/-- R123: each of MIXCOLUMNS and INVMIXCOLUMNS undoes the other, for every state; R124, first sentence: both transforms are
linear over XOR. -/
def Obligations.MixColumnsLaws : Prop :=
  (∀ m : Mat, ∃ x y, mixColumns m = .ok x ∧ invMixColumns x = .ok m ∧ invMixColumns m = .ok y ∧ mixColumns y = .ok m) ∧
  ∀ m n : Mat, ∃ x y x' y',
    mixColumns m = .ok x ∧ mixColumns n = .ok y ∧ invMixColumns m = .ok x' ∧ invMixColumns n = .ok y' ∧
    mixColumns (Mat.ofFn fun r c => Mat.at m r c ^^^ Mat.at n r c) =
      .ok (Mat.ofFn fun r c => Mat.at x r c ^^^ Mat.at y r c) ∧
    invMixColumns (Mat.ofFn fun r c => Mat.at m r c ^^^ Mat.at n r c) =
      .ok (Mat.ofFn fun r c => Mat.at x' r c ^^^ Mat.at y' r c)

/-- R159: unpacking a packed block gives it back and packing an unpacked state gives it back; a short chunk comes back
extended with zeros. -/
def Obligations.PackUnpackInverse : Prop :=
  (∀ b : Block, unpackMat (packBlock b) = b) ∧ (∀ m : Mat, packBlock (unpackMat m) = m) ∧
  ∀ chunk : List Byte, chunk.length ≤ 16 → ∃ m, packChunk chunk = some m ∧ unpackMat m = zext16 chunk

/-! ### The micro-ops -/

/-- R131, R132: KEYLOAD completes when KEYLEN is at most 16 and the key's bytes hold a value: K is the supplied bytes
followed by zeros, W[0..3] are its words, and nothing else changes but the UPC. -/
def Obligations.KeyloadLoadsKey : Prop :=
  ∀ s : State, s.keylen.toNat ≤ 16 → (∀ a, a < s.keylen.toNat → (s.byteAt .keybuf a).isSome = true) →
    ∃ t, exec .keyload s = .next t ∧
      (∀ k : Fin 16, if k.val < s.keylen.toNat then s.byteAt .keybuf k.val = some t.K[k] else t.K[k] = 0) ∧
      (∀ (i : Fin 44) (j : Fin 4) (h : i.val < 4), (t.W[i])[j] = t.K[4 * i.val + j.val]) ∧
      (∀ i : Fin 44, 4 ≤ i.val → t.W[i] = s.W[i]) ∧
      (∀ i : Fin 44, t.held.W[i] = (decide (i.val < 4) || s.held.W[i])) ∧
      t.held = { s.held with K := true, W := t.held.W, upc := true } ∧
      t = { s with K := t.K, W := t.W, upc := s.upc + 1, held := t.held } ∧ SameMemory s t

/-- R133, R134: RCONGEN completes in every state and writes the ten round constants, each the doubling of the one before,
and nothing else but the UPC. -/
def Obligations.RcongenWritesConstants : Prop :=
  ∀ s : State, ∃ t, exec .rcongen s = .next t ∧
    t.RC[0] = 0x01 ∧ (∀ i : Fin 9, t.RC[i.val + 1] = xtime t.RC[i.val]) ∧
    t.RC = #v[0x01, 0x02, 0x04, 0x08, 0x10, 0x20, 0x40, 0x80, 0x1B, 0x36] ∧
    t.held = { s.held with RC := true, upc := true } ∧
    t = { s with RC := t.RC, upc := s.upc + 1, held := t.held } ∧ SameMemory s t

/-- R138: KEXPR j (here j = n + 1, for every legal j) completes in every state and writes the four words W[4j] to
W[4j + 3], each from the one just written, and nothing else but the UPC. -/
def Obligations.KexprExpandsRound : Prop :=
  ∀ (s : State) (n : Fin 10), ∃ t, exec (.kexpr (BitVec.ofNat 4 (n.val + 1))) s = .next t ∧
    (let seed := xorWord (subword (rotword s.W[4 * n.val + 3])) (rconWord s.RC[n])
     t.W[4 * n.val + 4] = xorWord s.W[4 * n.val] seed) ∧
    t.W[4 * n.val + 5] = xorWord s.W[4 * n.val + 1] t.W[4 * n.val + 4] ∧
    t.W[4 * n.val + 6] = xorWord s.W[4 * n.val + 2] t.W[4 * n.val + 5] ∧
    t.W[4 * n.val + 7] = xorWord s.W[4 * n.val + 3] t.W[4 * n.val + 6] ∧
    (∀ i : Fin 44, i.val < 4 * n.val + 4 ∨ 4 * n.val + 8 ≤ i.val → t.W[i] = s.W[i]) ∧
    (∀ i : Fin 44, t.held.W[i] = (decide (4 * n.val + 4 ≤ i.val ∧ i.val < 4 * n.val + 8) || s.held.W[i])) ∧
    t.held = { s.held with W := t.held.W, upc := true } ∧
    t = { s with W := t.W, upc := s.upc + 1, held := t.held } ∧ SameMemory s t

/-- R135, R136: ROTWORD and SUBWORD, byte by byte. -/
def Obligations.RotwordSubword : Prop :=
  (∀ b0 b1 b2 b3 : Byte, rotword (mkWord b0 b1 b2 b3) = mkWord b1 b2 b3 b0 ∧
    subword (mkWord b0 b1 b2 b3) = mkWord (fsbox b0) (fsbox b1) (fsbox b2) (fsbox b3)) ∧
  (∀ w : Word, rotword (rotword (rotword (rotword w))) = w) ∧
  rotword (mkWord 0x0C 0x0D 0x0E 0x0F) = mkWord 0x0D 0x0E 0x0F 0x0C ∧
  subword (mkWord 0 0 0 0) = mkWord 0x63 0x63 0x63 0x63 ∧
  subword (mkWord 0x0D 0x0E 0x0F 0x0C) = mkWord 0xD7 0xAB 0x76 0xFE

/-- R155: PACK completes when block BLK has a byte (BLK < NBLK), DLEN is within DMAX and the chunk's bytes hold a value:
byte i of the block goes to S[i mod 4][i div 4], with zeros past the supplied bytes, and nothing else changes but the UPC
and the trace. -/
def Obligations.PackLoadsBlock : Prop :=
  ∀ s : State, 16 * s.blk < s.dlen → s.params.size.admits s.dlen = true →
    (∀ a, 16 * s.blk ≤ a → a < min (16 * s.blk + 16) s.dlen → (s.byteAt .din a).isSome = true) →
    ∃ t, exec .pack s = .next t ∧
      (∀ r c : Fin 4,
        if 16 * s.blk + (r.val + 4 * c.val) < s.dlen then
          s.byteAt .din (16 * s.blk + (r.val + 4 * c.val)) = some (Mat.at t.S r c)
        else Mat.at t.S r c = 0) ∧
      TransformFrame .pack s t

/-- R158: UNPACK completes when the block lies in DOUT: the 16 bytes of S go to the address `blockBase s` in flat order,
every other byte of every space reads as before, and nothing else changes but the UPC; afterwards S holds no value (R23,
log 13), its contents unchanged. -/
def Obligations.UnpackStoresBlock : Prop :=
  ∀ s : State, s.inSpace .dout (blockBase s) 16 = true →
    ∃ t, exec .unpack s = .next t ∧ blockBase s = 16 * s.blk ∧
      (∀ k : Fin 16, t.byteAt .dout (blockBase s + k.val) = some (Mat.at s.S (flatRow k) (flatCol k))) ∧
      SameMemoryBut (blockBase s) 16 s t ∧
      t = { s with dout := t.dout, upc := s.upc + 1, held := { s.held with S := false, upc := true } }

/-- R150, R151: ADDROUNDKEY r completes in every state, for every legal r: column by column it XORs the words of round key
r into S, which on the byte strings is the XOR with the round key's 16 bytes. -/
def Obligations.AddRoundKeyXors : Prop :=
  ∀ (s : State) (r : Fin 11), ∃ t, exec (.addroundkey (BitVec.ofNat 4 r.val)) s = .next t ∧
    (∀ row col : Fin 4, Mat.at t.S row col = Mat.at s.S row col ^^^ (s.W[4 * r.val + col.val])[row]) ∧
    (∀ k : Fin 16, (unpackMat t.S)[k] = (unpackMat s.S)[k] ^^^ (roundKeyBytes s.W r)[k]) ∧
    TransformFrame (.addroundkey (BitVec.ofNat 4 r.val)) s t

/-- R104, R105: SUBBYTES and INVSUBBYTES complete in every state; no byte is ever left unchanged, which rests on the
tables' PRESUMED entries (log 14). -/
def Obligations.SubBytesSubstitutes : Prop :=
  ∀ s : State,
    (∃ t, exec .subbytes s = .next t ∧ (∀ r c, Mat.at t.S r c = fsbox (Mat.at s.S r c)) ∧ TransformFrame .subbytes s t) ∧
    (∃ t, exec .invsubbytes s = .next t ∧ (∀ r c, Mat.at t.S r c = isbox (Mat.at s.S r c)) ∧
      TransformFrame .invsubbytes s t) ∧
    ∀ x : Byte, fsbox x ≠ x ∧ isbox x ≠ x

/-- R110, R111: SHIFTROWS and INVSHIFTROWS complete in every state: row r is rotated left, or right, by r. -/
def Obligations.ShiftRowsRotates : Prop :=
  ∀ s : State,
    (∃ t, exec .shiftrows s = .next t ∧
      (∀ r c d : Fin 4, d.val = (c.val + r.val) % 4 → Mat.at t.S r c = Mat.at s.S r d) ∧ TransformFrame .shiftrows s t) ∧
    ∃ t, exec .invshiftrows s = .next t ∧
      (∀ r c d : Fin 4, d.val = (c.val + 4 - r.val) % 4 → Mat.at t.S r c = Mat.at s.S r d) ∧
      TransformFrame .invshiftrows s t

/-- R120, R121: MIXCOLUMNS and INVMIXCOLUMNS complete in every state: each column times MIX, or INVMIX. -/
def Obligations.MixColumnsMultiplies : Prop :=
  ∀ s : State,
    (∃ t, exec .mixcolumns s = .next t ∧
      (∀ c : Fin 4,
        let a0 := Mat.at s.S 0 c; let a1 := Mat.at s.S 1 c; let a2 := Mat.at s.S 2 c; let a3 := Mat.at s.S 3 c
        Mat.at t.S 0 c = gfProduct a0 2 ^^^ gfProduct a1 3 ^^^ a2 ^^^ a3 ∧
        Mat.at t.S 1 c = a0 ^^^ gfProduct a1 2 ^^^ gfProduct a2 3 ^^^ a3 ∧
        Mat.at t.S 2 c = a0 ^^^ a1 ^^^ gfProduct a2 2 ^^^ gfProduct a3 3 ∧
        Mat.at t.S 3 c = gfProduct a0 3 ^^^ a1 ^^^ a2 ^^^ gfProduct a3 2) ∧
      TransformFrame .mixcolumns s t) ∧
    ∃ t, exec .invmixcolumns s = .next t ∧
      (∀ c : Fin 4,
        let a0 := Mat.at s.S 0 c; let a1 := Mat.at s.S 1 c; let a2 := Mat.at s.S 2 c; let a3 := Mat.at s.S 3 c
        Mat.at t.S 0 c = gfProduct a0 14 ^^^ gfProduct a1 11 ^^^ gfProduct a2 13 ^^^ gfProduct a3 9 ∧
        Mat.at t.S 1 c = gfProduct a0 9 ^^^ gfProduct a1 14 ^^^ gfProduct a2 11 ^^^ gfProduct a3 13 ∧
        Mat.at t.S 2 c = gfProduct a0 13 ^^^ gfProduct a1 9 ^^^ gfProduct a2 14 ^^^ gfProduct a3 11 ∧
        Mat.at t.S 3 c = gfProduct a0 11 ^^^ gfProduct a1 13 ^^^ gfProduct a2 9 ^^^ gfProduct a3 14) ∧
      TransformFrame .invmixcolumns s t

/-- R177, R199: CHKARGS accepts a KEYLEN of at most 16 and, under DECRYPT, a DLEN that is a multiple of 16: NBLK and BLK
are written and nothing else changes but the UPC. It raises KeyTooLarge for a KEYLEN above 16, whatever DLEN is, and
otherwise LengthNotMultiple under DECRYPT for a DLEN that is no multiple of 16. -/
def Obligations.ChkargsChecksArguments : Prop :=
  ∀ s : State,
    (s.keylen.toNat ≤ 16 → (s.prog = .dec → s.dlen % 16 = 0) →
      exec .chkargs s = .next { s with
        nblk := (s.dlen + 15) / 16, blk := 0, upc := s.upc + 1
        held := { s.held with nblk := true, blk := true, upc := true } }) ∧
    (16 < s.keylen.toNat → exec .chkargs s = .next (raise .keyTooLarge s)) ∧
    (s.keylen.toNat ≤ 16 → s.prog = .dec → s.dlen % 16 ≠ 0 → exec .chkargs s = .next (raise .lengthNotMultiple s))

/-- R178: BLKTEST goes on to the next index while BLK < NBLK, and else ends the command: OLEN is 16 * NBLK, STATE is DONE,
the internal registers hold no value, and nothing else changes. -/
def Obligations.BlktestGoesOnOrEnds : Prop :=
  ∀ s : State,
    (s.blk < s.nblk →
      exec .blktest s = .next { s with upc := s.upc + 1, held := { s.held with upc := true } }) ∧
    (¬ s.blk < s.nblk →
      ∃ t, exec .blktest s = .next t ∧ t.olen = 16 * s.nblk ∧ t.phase = .done ∧ t.err = s.err ∧ EndFrame s t)

/-- R179: NEXTBLK completes in every state: BLK + 1, UPC to 13, nothing else. -/
def Obligations.NextblkLoops : Prop :=
  ∀ s : State, exec .nextblk s = .next { s with
    blk := s.blk + 1, upc := 13, held := { s.held with blk := true, upc := true } }

/-- R173: a HOST write of 0x01 or 0x02 to CMD while no command runs starts ENC_PROG or DEC_PROG at index 0, clears the
last command's result and error, and changes nothing else; a write of any other value takes the fault IllegalCommand. -/
def Obligations.CommandStarts : Prop :=
  ∀ s : State, s.phase ≠ .busy →
    exec .encrypt s = .next { s with
      cmd := 0x01, olen := 0, prog := .enc, upc := 0, err := none, phase := .busy
      held := { s.held with prog := true, upc := true } } ∧
    exec .decrypt s = .next { s with
      cmd := 0x02, olen := 0, prog := .dec, upc := 0, err := none, phase := .busy
      held := { s.held with prog := true, upc := true } } ∧
    ∀ v : Byte, v ≠ 0x01 → v ≠ 0x02 →
      illegalCommandWrite v s = .next (raise .illegalCommand { s with cmd := v, olen := 0 })

/-- R196: fault entry: ERR is the fault, STATE is FAULT, OLEN is 0, the internal registers hold no value, and nothing else
changes. -/
def Obligations.FaultEntry : Prop :=
  ∀ (f : CoreFault) (s : State),
    (raise f s).err = some f ∧ (raise f s).phase = .fault ∧ (raise f s).olen = 0 ∧ EndFrame s (raise f s) ∧
    SameInputs s (raise f s)

/-- R203, R21, R222, R156: what the model does where no rule arrives. An operand no legal word carries is refused, and so
is an access outside its space (KEYLOAD with KEYLEN above 16, PACK with DLEN above DMAX, UNPACK past DMAX) and a chunk of
more than 16 bytes; KEYLOAD and PACK fault with UnwrittenRead when a byte they read holds no value; PACK with no byte left
gives the all-zero state (the model's choice, log 12). -/
def Obligations.OutsideTheRules : Prop :=
  ∀ s : State,
    (∀ j : BitVec 4, j.toNat = 0 ∨ 10 < j.toNat → exec (.kexpr j) s = .refused .operandOutOfRange) ∧
    (∀ r : BitVec 4, 10 < r.toNat → exec (.addroundkey r) s = .refused .operandOutOfRange) ∧
    (16 < s.keylen.toNat → exec .keyload s = .refused .accessOutsideSpace) ∧
    (s.inSpace .din (blockBase s) (chunkLength s) = false → exec .pack s = .refused .accessOutsideSpace) ∧
    (s.inSpace .dout (blockBase s) 16 = false → exec .unpack s = .refused .accessOutsideSpace) ∧
    (∀ chunk : List Byte, 16 < chunk.length → packChunk chunk = none) ∧
    (∀ a : Nat,
      (s.keylen.toNat ≤ 16 → a < s.keylen.toNat → s.byteAt .keybuf a = none → exec .keyload s = .fault .unwrittenRead) ∧
      (s.params.size.admits s.dlen = true → 16 * s.blk ≤ a → a < min (16 * s.blk + 16) s.dlen →
        s.byteAt .din a = none → exec .pack s = .fault .unwrittenRead)) ∧
    (s.dlen ≤ 16 * s.blk → s.inSpace .din (16 * s.blk) 0 = true →
      ∃ t, exec .pack s = .next t ∧ (∀ r c, Mat.at t.S r c = 0) ∧ TransformFrame .pack s t)

/-! ### The sequencer, the HOST and reset -/

/-- R174: while BUSY, in the CORE's turn, a step is the micro-op the word at (PROG, UPC) decodes to; where the turn was an
event of the schedule (log 7), the event is used up. -/
def Obligations.StepRunsFetched : Prop :=
  ∀ (s : State) (w : Byte) (i : Instr) (rest : List Event), s.phase = .busy → CoreNext s rest →
    (s.prog = .enc → s.encProg[s.upc.toNat]? = some w) → (s.prog = .dec → s.decProg[s.upc.toNat]? = some w) →
    decodeMicro w = .ok i → step s = exec i { s with sched := rest }

/-- R34, R195, R182: the CORE's turn without a micro-op. A fetch with UPC above 56 raises IllegalMicroOp; with no command
running the CORE takes no step. Where the turn was an event of the schedule (log 7), the event is used up. -/
def Obligations.CoreTurnWithoutMicroOp : Prop :=
  ∀ (s : State) (rest : List Event), CoreNext s rest →
    (s.phase = .busy → 56 < s.upc.toNat → step s = .next (raise .illegalMicroOp { s with sched := rest })) ∧
    (s.phase ≠ .busy → step s = .next { s with sched := rest })

/-- R76, R173: a HOST write of a command byte to CMD, the next event of the schedule (log 7), runs that command. -/
def Obligations.StepRunsCommand : Prop :=
  ∀ (s : State) (v : Byte) (i : Instr) (rest : List Event), s.sched = .host (.writeCr 0 v.toNat) :: rest →
    decodeCommand v = .ok i → step s = exec i { s with sched := rest }

/-- R201: while BUSY every HOST move but a read of STATUS is refused; the read of STATUS answers its value and changes
nothing else but the record of answers (log 8, log 9). -/
def Obligations.HostWhileBusy : Prop :=
  ∀ (s : State) (m : HostMove) (rest : List Event), s.phase = .busy → s.sched = .host m :: rest →
    (m ≠ .readCr 1 → step s = .refused .hostWhileBusy) ∧
    (m = .readCr 1 → step s = .next { s with sched := rest, answers := s.answers ++ [s.status.toNat] })

/-- R41: what the HOST reads while no command runs; CR6 and above are refused. KEYLEN and DLEN that were never written read
as the contents the model names (log 1). -/
def Obligations.HostReadsControl : Prop :=
  ∀ (s : State) (rest : List Event) (cr : Nat), s.phase ≠ .busy → s.sched = .host (.readCr cr) :: rest →
    (6 ≤ cr → step s = .refused .hostNoPath) ∧
    ∀ n : Nat, (cr, n) ∈ [(0, s.cmd.toNat), (1, s.status.toNat), (2, s.keylen.toNat), (3, s.dlen), (4, s.olen),
        (5, s.ctrl.toNat)] →
      step s = .next { s with sched := rest, answers := s.answers ++ [n] }

/-- R25, R36, R38, R39, R40, R41: what a HOST write of a control register other than CMD does while no command runs. -/
def Obligations.HostWritesControl : Prop :=
  ∀ (s : State) (rest : List Event) (cr v : Nat), s.phase ≠ .busy → s.sched = .host (.writeCr cr v) :: rest →
    (cr = 1 ∨ cr = 4 → step s = .next { s with sched := rest }) ∧
    (cr = 2 → step s = .next { s with
      sched := rest, keylen := BitVec.ofNat 8 (min v 255), held := { s.held with keylen := true } }) ∧
    (cr = 3 → s.params.size.admits v = true →
      step s = .next { s with sched := rest, dlen := v, held := { s.held with dlen := true } }) ∧
    (cr = 3 → s.params.size.admits v = false → step s = .refused .messageTooLong) ∧
    (cr = 5 → v < 256 → step s = .next { s with sched := rest, traceEn := decide (v % 2 = 1) && s.params.tracePort }) ∧
    (6 ≤ cr → step s = .refused .hostNoPath)

/-- R24, R42, R50: a HOST write of a byte of KEYBUF or DIN while no command runs stores that byte and nothing else; the
other spaces it cannot write, nor a byte outside the space. -/
def Obligations.HostWritesBuffers : Prop :=
  ∀ (s : State) (rest : List Event) (sp : Space) (a : Nat) (b : Byte), s.phase ≠ .busy →
    s.sched = .host (.writeSpace sp a b) :: rest →
    (sp = .keybuf ∨ sp = .din →
      (s.inSpace sp a 1 = false → step s = .refused .accessOutsideSpace) ∧
      (s.inSpace sp a 1 = true →
        ∃ t, step s = .next t ∧ t.byteAt sp a = some b ∧
          (∀ sp' a', sp' ≠ sp ∨ a' ≠ a → t.byteAt sp' a' = s.byteAt sp' a') ∧
          t = { s with sched := rest, keybuf := t.keybuf, din := t.din })) ∧
    (sp ≠ .keybuf → sp ≠ .din → step s = .refused .hostNoPath)

/-- R42, R59: the HOST reads a byte of DOUT when STATE is DONE and the offset is below OLEN and within DMAX; any other byte
of DOUT is not valid. A read of a byte that is not valid faults (log 10); no read changes anything but the record of
answers. R20, R50, R62: no other space is readable for the HOST, and such a read is refused. -/
def Obligations.HostReadsResult : Prop :=
  ∀ (s : State) (rest : List Event) (sp : Space) (a : Nat), s.phase ≠ .busy → s.sched = .host (.readSpace sp a) :: rest →
    (sp ≠ .dout → step s = .refused .hostNoPath) ∧
    (sp = .dout →
      (s.phase ≠ .done ∨ s.olen ≤ a → step s = .fault .unwrittenRead) ∧
      ∀ b : Byte, s.phase = .done → a < s.olen → s.inSpace .dout a 1 = true → s.byteAt .dout a = some b →
        step s = .next { s with sched := rest, answers := s.answers ++ [b.toNat] })

/-- R46: the values the spec gives for reset. Which registers hold no value is stated; what their contents are is the
model's choice (log 1) and is not. With no command started the machine stays as reset left it, and a command starts at
UPC = 0 of the ROM it selects. -/
def Obligations.ResetValues : Prop :=
  State.reset.phase = .idle ∧ State.reset.err = none ∧ State.reset.status = 0x00 ∧ State.reset.cmd = 0x00 ∧
  State.reset.olen = 0 ∧ State.reset.ctrl = 0x00 ∧ State.reset.held = Held.nothing ∧
  (∀ a, State.reset.byteAt .keybuf a = none ∧ State.reset.byteAt .din a = none ∧ State.reset.byteAt .dout a = none) ∧
  State.reset.encProg = encProgram ∧ State.reset.decProg = decProgram ∧
  (∀ x : Byte, State.reset.byteAt .fsbox x.toNat = some (fsbox x) ∧ State.reset.byteAt .isbox x.toNat = some (isbox x)) ∧
  step State.reset = .next State.reset ∧
  (∃ t, step { State.reset with sched := [.host (.writeCr 0 0x01)] } = .next t ∧ t.phase = .busy ∧ t.prog = .enc ∧ t.upc = 0) ∧
  ∃ t, step { State.reset with sched := [.host (.writeCr 0 0x02)] } = .next t ∧ t.phase = .busy ∧ t.prog = .dec ∧ t.upc = 0

/-- R220: a reset, also while a command runs, gives STATUS, CMD, OLEN and CTRL their reset values; no register and no
buffer byte holds a value; the ROMs and the parameters stay. -/
def Obligations.ResetAbandonsCommand : Prop :=
  ∀ (s : State) (rest : List Event), s.sched = .reset :: rest → ∃ t, step s = .next t ∧
    t.phase = .idle ∧ t.err = none ∧ t.cmd = 0x00 ∧ t.olen = 0 ∧ t.traceEn = false ∧ t.held = Held.nothing ∧
    (∀ a, t.byteAt .keybuf a = none ∧ t.byteAt .din a = none ∧ t.byteAt .dout a = none) ∧
    t.encProg = s.encProg ∧ t.decProg = s.decProg ∧ t.params = s.params ∧ t.sched = rest

/-- R36, R190: the STATUS byte: STATE in bits 1:0, ERR in bits 4:2, each with the rules' codes, bits 7:5 zero. -/
def Obligations.StatusByte : Prop :=
  ∀ s : State,
    (∀ p ∈ ([(.idle, 0), (.busy, 1), (.done, 2), (.fault, 3)] : List (Phase × Nat)),
      s.phase = p.1 → (s.status.extractLsb' 0 2).toNat = p.2) ∧
    (s.err = none → (s.status.extractLsb' 2 3).toNat = 0) ∧
    (∀ f ∈ ([(.keyTooLarge, 1), (.invariantViolation, 2), (.lengthNotMultiple, 3), (.illegalCommand, 4),
        (.illegalMicroOp, 5)] : List (CoreFault × Nat)), s.err = some f.1 → (s.status.extractLsb' 2 3).toNat = f.2) ∧
    s.status.extractLsb' 5 3 = 0

/-! ### The whole machine -/

/-- Every step keeps the machine's invariant: the buffers' canonical form and bounds, ERR against STATE, OLEN, DLEN,
TRACE_EN, and which registers hold a value inside and outside a command. -/
def Obligations.StepKeepsInv : Prop :=
  ∀ s t : State, s.Inv → step s = .next t → t.Inv

/-- Both invariants hold after reset. -/
def Obligations.ResetHasInvariants : Prop := State.reset.Inv ∧ CommandInv State.reset

/-- R34, R39, R59, R181: every step of a machine with the constant ROMs keeps the invariant of a running command: UPC stays
within 0 to 56, BLK within NBLK, the registers each index needs hold a value, and at DONE every byte of the result is
valid. -/
def Obligations.StepKeepsCommandInv : Prop :=
  ∀ s t : State, CommandInv s → step s = .next t → CommandInv t

/-- R21, R203: UnwrittenRead of a register is unreachable in a command: where the command invariant holds and KEYLEN and
DLEN have been written, the sequencer's next step reads only registers that hold a value, so that the step that faults
on such reads is the step itself. -/
def Obligations.CommandReadsOnlyHeld : Prop :=
  ∀ s : State, CommandInv s → s.held.keylen = true → s.held.dlen = true →
    (s.phase = .busy → fetchHeld s = true) ∧ strictStep s = step s

/-- R190, R195: IllegalMicroOp and InvariantViolation are unreachable from a command: where the command invariant holds, a
step of a running command that ends in FAULT is CHKARGS, with KeyTooLarge or LengthNotMultiple. -/
def Obligations.OnlyChkargsFaults : Prop :=
  ∀ s t : State, CommandInv s → s.phase = .busy → coreMoves s = true → step s = .next t → t.phase = .fault →
    fetched s = some .chkargs ∧ (t.err = some .keyTooLarge ∨ t.err = some .lengthNotMultiple)

/-- R60: in its turn the CORE never writes KEYBUF, DIN, KEYLEN, DLEN, CMD or CTRL, and what it does does not depend on
DOUT. -/
def Obligations.CoreKeepsInputs : Prop :=
  (∀ s t : State, coreMoves s = true → step s = .next t → SameInputs s t) ∧
  ∀ (s t : State) (d : Memory), coreMoves s = true → step s = .next t →
    ∃ t', step { s with dout := d } = .next t' ∧ t' = { t with dout := t'.dout }

/-- R45, R66: no step changes a ROM image or a parameter. -/
def Obligations.RomsNeverChange : Prop :=
  ∀ s t : State, step s = .next t →
    t.params = s.params ∧ ∀ sp a, sp ∈ [Space.fsbox, .isbox, .encProg, .decProg] → t.byteAt sp a = s.byteAt sp a

/-- R37: STATUS.STATE and ERR change only at a reset, at a command start, at the BLKTEST that ends a command and at a
fault, and only along the transitions of the rule. -/
def Obligations.StatusTransitions : Prop :=
  ∀ s t : State, step s = .next t →
    (t.phase = s.phase ∧ t.err = s.err) ∨
    (∃ rest, s.sched = .reset :: rest ∧ t.phase = .idle ∧ t.err = none) ∨
    (s.phase ≠ .busy ∧ t.phase = .busy ∧ t.err = none ∧ t.upc = 0) ∨
    (s.phase = .busy ∧ fetched s = some .blktest ∧ ¬ s.blk < s.nblk ∧ t.phase = .done ∧ t.err = s.err) ∨
    (t.phase = .fault ∧ ∃ f, t.err = some f ∧ (s.phase ≠ .busy → f = .illegalCommand))

/-- R40, R211: the trace port has no effect on any result: run with TRACE_EN set or clear and with any trace emitted
before, an instruction answers alike, and the states it leads to differ in TRACE_EN and the trace alone. -/
def Obligations.TraceHasNoEffect : Prop :=
  ∀ (i : Instr) (s : State) (b : Bool) (l : List TraceEvent),
    (∀ t, exec i s = .next t → ∃ l', exec i { s with traceEn := b, trace := l } = .next { t with traceEn := b, trace := l' }) ∧
    (∀ r, exec i s = .fault r → exec i { s with traceEn := b, trace := l } = .fault r) ∧
    ∀ r, exec i s = .refused r → exec i { s with traceEn := b, trace := l } = .refused r

/-- R211: with the port present and enabled one event, the micro-op word and the new S in unpack order, is emitted after
each micro-op that writes S and after no other; otherwise nothing is emitted. -/
def Obligations.TraceEmitsStateWrites : Prop :=
  ∀ (i : Instr) (s t : State), exec i s = .next t →
    (s.params.tracePort = true → s.traceEn = true → writesState i = true →
      t.trace = s.trace ++ [{ name := encode i, snapshot := unpackMat t.S }]) ∧
    (s.params.tracePort = false ∨ s.traceEn = false ∨ writesState i = false → t.trace = s.trace)

/-- R139: KEYLOAD, RCONGEN, KEXPR 1 to KEXPR 10 in that order write every word of W to the value of the recurrence. -/
def Obligations.KeyScheduleComputesExpandedKey : Prop :=
  ∀ (s : State) (key : List Byte), s.keylen.toNat ≤ 16 → collect (s.byteAt .keybuf) 0 s.keylen.toNat = some key →
    ∃ t, execAll keysched s = .next t ∧ t.W = expandKey (zext16 key) ∧ (∀ i : Fin 44, t.held.W[i] = true)

/-- R166, R171: the 40 transforms of ENCBLOCK and of DECBLOCK compute EncBlock and DecBlock. -/
def Obligations.BlockOpsComputeBlock : Prop :=
  ∀ s : State,
    (∃ t, execAll encBlockOps s = .next t ∧ encBlock (unpackMat s.S) s.W = .ok (unpackMat t.S) ∧ t.W = s.W) ∧
    ∃ t, execAll decBlockOps s = .next t ∧ decBlock (unpackMat s.S) s.W = .ok (unpackMat t.S) ∧ t.W = s.W

/-- R165, R183: a started ENCRYPT ends, and what the HOST then finds is what the transaction gives: the ciphertext, or
KeyTooLarge. -/
def Obligations.EncryptAgreesWithTransaction : Prop :=
  ∀ (s : State) (key msg : List Byte), CommandReady s key msg →
    ∃ t n u, exec .encrypt s = .next t ∧ Host.Core.run core n t = .next u ∧ hostResult u = some (encryptMessage msg key)

/-- R170, R183: a started DECRYPT ends, and what the HOST then finds is what the transaction gives: the plaintext,
KeyTooLarge or LengthNotMultiple. -/
def Obligations.DecryptAgreesWithTransaction : Prop :=
  ∀ (s : State) (key msg : List Byte), CommandReady s key msg →
    ∃ t n u, exec .decrypt s = .next t ∧ Host.Core.run core n t = .next u ∧ hostResult u = some (decryptMessage msg key)

/-- R181: a command that does not fault is BUSY for exactly 14 + 44 * NBLK micro-ops and is then DONE. -/
def Obligations.CommandLength : Prop :=
  ∀ (s t : State) (key msg : List Byte) (i : Instr), CommandReady s key msg → s.keylen.toNat ≤ 16 →
    (i = .encrypt ∨ (i = .decrypt ∧ s.dlen % 16 = 0)) → exec i s = .next t →
    (∀ n, n < commandLength s → ∃ v : State, Host.Core.run core n t = .next v ∧ v.phase = .busy) ∧
    ∃ u : State, Host.Core.run core (commandLength s) t = .next u ∧ u.phase = .done ∧
      u.olen = 16 * blockCount s.dlen

/-- R172, R184: EncBlock and DecBlock are total and undo each other, under every expanded key. -/
def Obligations.BlocksRoundTrip : Prop :=
  ∀ (b : Block) (W : Expanded),
    (∃ c, encBlock b W = .ok c ∧ decBlock c W = .ok b) ∧ ∃ p, decBlock b W = .ok p ∧ encBlock p W = .ok b

/-- R172: decrypting a ciphertext with its key gives the plaintext followed by the zeros of its padding, and encrypting a
decrypted ciphertext gives it back. -/
def Obligations.MessagesRoundTrip : Prop :=
  ∀ (p key : List Byte), key.length ≤ 16 →
    (∃ c, encryptMessage p key = .ok c ∧
      decryptMessage c key = .ok (p ++ List.replicate (16 * blockCount p.length - p.length) 0)) ∧
    (p.length % 16 = 0 → ∃ q, decryptMessage p key = .ok q ∧ encryptMessage q key = .ok p)

/-- V1 and V2 of 95_test_vectors.md, the vector R19 judges a model by: ENCRYPT of its plaintext under its key gives its
ciphertext, and DECRYPT of that the plaintext. It checks the tables' PRESUMED entries (log 14). -/
def Obligations.KnownAnswer : Prop :=
  let key : List Byte := (List.range 16).map (BitVec.ofNat 8)
  let plaintext : List Byte := (List.range 16).map fun n => BitVec.ofNat 8 (0x11 * n)
  let ciphertext : List Byte :=
    [0x69, 0xc4, 0xe0, 0xd8, 0x6a, 0x7b, 0x04, 0x30] ++ [0xd8, 0xcd, 0xb7, 0x80, 0x70, 0xb4, 0xc5, 0x5a]
  encryptMessage plaintext key = .ok ciphertext ∧ decryptMessage ciphertext key = .ok plaintext
end

