-- ==== Sys2Proof/Laws/Bytes.lean ====
section
/-! SUPPORT. Matrices, words and blocks element by element. -/

namespace Sys2Proof.Machine

@[simp] theorem Mat.at_ofFn (f : Fin 4 → Fin 4 → Byte) (r c : Fin 4) : Mat.at (Mat.ofFn f) r c = f r c := by
  simp [Mat.at, Mat.ofFn]

/-- Two matrices with the same elements are equal. -/
theorem Mat.ext_at {m n : Mat} (h : ∀ r c, Mat.at m r c = Mat.at n r c) : m = n := by
  apply Vector.ext
  intro r hr
  apply Vector.ext
  intro c hc
  exact h ⟨r, hr⟩ ⟨c, hc⟩

theorem Mat.ofFn_at (m : Mat) : Mat.ofFn (Mat.at m) = m := Mat.ext_at fun r c => Mat.at_ofFn _ r c

@[simp] theorem xorWord_get (u v : Word) (i : Nat) (h : i < 4) : (xorWord u v)[i] = u[i] ^^^ v[i] := by
  simp [xorWord]

@[simp] theorem subword_get (w : Word) (i : Nat) (h : i < 4) : (subword w)[i] = fsbox w[i] := by
  simp [subword]

@[simp] theorem keyWord_get (k : Block) (i : Fin 4) (j : Nat) (h : j < 4) : (keyWord k i)[j] = k[4 * i.val + j] := by
  simp [keyWord]

@[simp] theorem roundKey_get (W : Expanded) (r : Fin 11) (c : Nat) (h : c < 4) :
    (roundKey W r)[c] = W[4 * r.val + c] := by
  simp [roundKey]

@[simp] theorem Mat.col_get (m : Mat) (c : Fin 4) (r : Nat) (h : r < 4) : (Mat.col m c)[r] = Mat.at m ⟨r, h⟩ c := by
  simp [Mat.col]

@[simp] theorem Mat.at_ofCols (cols : Vector Word 4) (r c : Fin 4) :
    Mat.at (Mat.ofCols cols) r c = (cols[c])[r] := by
  simp [Mat.ofCols]

@[simp] theorem zext16_get (v : List Byte) (i : Nat) (h : i < 16) : (zext16 v)[i] = v.getD i 0 := by
  simp [zext16]

@[simp] theorem unpackMat_get (m : Mat) (k : Nat) (h : k < 16) :
    (unpackMat m)[k] = Mat.at m (flatRow ⟨k, h⟩) (flatCol ⟨k, h⟩) := by
  simp [unpackMat]

@[simp] theorem packBlock_at (b : Block) (r c : Fin 4) :
    Mat.at (packBlock b) r c = b[(flatIndex r c).val] := by
  simp [packBlock]

@[simp] theorem addRoundKey_at (key : Vector Word 4) (m : Mat) (r c : Fin 4) :
    Mat.at (addRoundKey key m) r c = Mat.at m r c ^^^ (key[c])[r] := by
  simp [addRoundKey]

@[simp] theorem flatRow_flatIndex (r c : Fin 4) : flatRow (flatIndex r c) = r := by
  apply Fin.ext; simp only [flatRow, flatIndex]; omega

@[simp] theorem flatCol_flatIndex (r c : Fin 4) : flatCol (flatIndex r c) = c := by
  apply Fin.ext; simp only [flatCol, flatIndex]; omega

@[simp] theorem flatIndex_flat (k : Fin 16) : flatIndex (flatRow k) (flatCol k) = k := by
  apply Fin.ext; simp only [flatRow, flatCol, flatIndex]; omega

@[simp] theorem unpackMat_length (m : Mat) : (unpackMat m).toList.length = 16 := by simp

end Sys2Proof.Machine
end

