-- ==== Sys2Proof/Laws/Memory.lean ====
section
/-! SUPPORT. The laws of a buffer: reading after writing, the canonical form, which offsets are listed. -/

namespace Sys2Proof.Machine

@[simp] theorem Memory.read_write_same (m : Memory) (a : Nat) (b : Byte) :
    Memory.read (Memory.write m a b) a = some b := by
  induction m with
  | nil => simp [Memory.write, Memory.read]
  | cons c m ih =>
    obtain ⟨x, d⟩ := c
    simp only [Memory.write]
    split
    · simp [Memory.read]
    · split
      · simp [Memory.read]
      · rename_i h; simp [Memory.read, ih, Ne.symm h]

/-- A write leaves every other offset alone. -/
theorem Memory.read_write_other (m : Memory) {a a' : Nat} (b : Byte) (h : a' ≠ a) :
    Memory.read (Memory.write m a b) a' = Memory.read m a' := by
  induction m with
  | nil => simp [Memory.write, Memory.read, h.symm]
  | cons c m ih =>
    obtain ⟨x, d⟩ := c
    simp only [Memory.write]
    split
    · simp [Memory.read, h.symm]
    · split
      · rename_i h1; simp [Memory.read, ← h1, h.symm]
      · simp [Memory.read, ih]

/-- The offsets listed after a write. -/
theorem Memory.mem_write {m : Memory} {a : Nat} {b : Byte} {c : Host.Cell}
    (h : c ∈ Memory.write m a b) : c = (a, b) ∨ c ∈ m := by
  induction m with
  | nil => simpa [Memory.write] using h
  | cons d m ih =>
    obtain ⟨x, e⟩ := d
    simp only [Memory.write] at h
    split at h
    · simpa using h
    · split at h
      · simp only [List.mem_cons] at h ⊢
        tauto
      · simp only [List.mem_cons] at h ⊢
        rcases h with h | h
        · tauto
        · rcases ih h with h | h <;> tauto

/-- A write keeps the canonical form. -/
theorem Memory.write_wf {m : Memory} (h : Memory.wf m) (a : Nat) (b : Byte) : Memory.wf (Memory.write m a b) := by
  induction m with
  | nil => simp [Memory.write]
  | cons c m ih =>
    obtain ⟨x, d⟩ := c
    have h' := List.pairwise_cons.1 h
    simp only [Memory.write]
    split
    · rename_i hlt
      refine List.pairwise_cons.2 ⟨fun e he => ?_, h⟩
      rcases List.mem_cons.1 he with rfl | he
      · exact hlt
      · exact Nat.lt_trans hlt (h'.1 e he)
    · split
      · rename_i heq; subst heq; exact List.pairwise_cons.2 h'
      · rename_i h1 h2
        refine List.pairwise_cons.2 ⟨fun e he => ?_, ih h'.2⟩
        rcases Memory.mem_write he with rfl | he
        · show x < a; omega
        · exact h'.1 e he

/-- A string of writes keeps the canonical form. -/
theorem Memory.writeAll_wf {m : Memory} (h : Memory.wf m) (a : Nat) (bs : List Byte) :
    Memory.wf (Memory.writeAll m a bs) := by
  induction bs generalizing m a with
  | nil => exact h
  | cons b bs ih => exact ih (Memory.write_wf h a b) (a + 1)

/-- The offsets listed after a string of writes. -/
theorem Memory.mem_writeAll {m : Memory} {a : Nat} {bs : List Byte} {c : Host.Cell}
    (h : c ∈ Memory.writeAll m a bs) : (a ≤ c.1 ∧ c.1 < a + bs.length) ∨ c ∈ m := by
  induction bs generalizing m a with
  | nil => exact .inr h
  | cons b bs ih =>
    simp only [List.length_cons]
    rcases ih (m := Memory.write m a b) h with h | h
    · omega
    · rcases Memory.mem_write h with rfl | h
      · left; simp
      · exact .inr h

/-- A string of writes leaves every offset outside it alone. -/
theorem Memory.read_writeAll_outside (m : Memory) (a : Nat) (bs : List Byte) {x : Nat}
    (h : x < a ∨ a + bs.length ≤ x) : Memory.read (Memory.writeAll m a bs) x = Memory.read m x := by
  induction bs generalizing m a with
  | nil => rfl
  | cons b bs ih =>
    simp only [List.length_cons] at h
    rw [Memory.writeAll, ih _ _ (by omega), Memory.read_write_other _ _ (by omega)]

/-- A string of writes stores its bytes in order. -/
theorem Memory.read_writeAll_inside (m : Memory) (a : Nat) (bs : List Byte) {i : Nat} (h : i < bs.length) :
    Memory.read (Memory.writeAll m a bs) (a + i) = bs[i]? := by
  induction bs generalizing m a i with
  | nil => simp at h
  | cons b bs ih =>
    rw [Memory.writeAll]
    cases i with
    | zero => rw [Memory.read_writeAll_outside _ _ _ (by omega)]; simp
    | succ i =>
      have := ih (Memory.write m a b) (a + 1) (i := i) (by simpa using h)
      rw [show a + (i + 1) = a + 1 + i by omega, this]; simp

/-- What `collect` gives is one byte for each offset. -/
theorem collect_some {rd : Nat → Option Byte} {a n : Nat} {bs : List Byte} (h : collect rd a n = some bs) :
    bs.length = n ∧ ∀ i, i < n → rd (a + i) = bs[i]? := by
  induction n generalizing a bs with
  | zero => simp [collect] at h; subst h; simp
  | succ n ih =>
    simp only [collect] at h
    split at h
    · rename_i b bs' hb hbs
      simp only [Option.some.injEq] at h
      subst h
      obtain ⟨hl, hi⟩ := ih hbs
      refine ⟨by simp [hl], fun i hlt => ?_⟩
      cases i with
      | zero => simpa using hb
      | succ i => rw [show a + (i + 1) = a + 1 + i by omega]; simpa using hi i (by omega)
    · simp at h

/-- `collect` succeeds when each byte holds a value. -/
theorem collect_eq_some {rd : Nat → Option Byte} {a : Nat} {bs : List Byte}
    (h : ∀ i, i < bs.length → rd (a + i) = bs[i]?) : collect rd a bs.length = some bs := by
  induction bs generalizing a with
  | nil => rfl
  | cons b bs ih =>
    have h0 := h 0 (by simp)
    have hs : collect rd (a + 1) bs.length = some bs := ih fun i hi => by
      have := h (i + 1) (by simpa using hi)
      rw [show a + 1 + i = a + (i + 1) by omega, this]; simp
    simp only [List.length_cons, collect]
    simp at h0
    rw [h0, hs]

/-- `collect` fails when some byte holds no value. -/
theorem collect_isSome_iff {rd : Nat → Option Byte} {a n : Nat} :
    (collect rd a n).isSome = true ↔ ∀ i, i < n → (rd (a + i)).isSome = true := by
  induction n generalizing a with
  | zero => simp [collect]
  | succ n ih =>
    have e : (collect rd a (n + 1)).isSome = true ↔ (rd a).isSome = true ∧ (collect rd (a + 1) n).isSome = true := by
      simp only [collect]
      cases rd a <;> cases collect rd (a + 1) n <;> simp
    rw [e, ih]
    constructor
    · rintro ⟨h0, h⟩ i hi
      cases i with
      | zero => simpa using h0
      | succ i => rw [show a + (i + 1) = a + 1 + i by omega]; exact h i (by omega)
    · intro h
      refine ⟨by simpa using h 0 (by omega), fun i hi => ?_⟩
      rw [show a + 1 + i = a + (i + 1) by omega]; exact h (i + 1) (by omega)

/-- Two strings one after the other. -/
theorem collect_append {rd : Nat → Option Byte} {a m n : Nat} {x y : List Byte} (hx : collect rd a m = some x)
    (hy : collect rd (a + m) n = some y) : collect rd a (m + n) = some (x ++ y) := by
  obtain ⟨lx, gx⟩ := collect_some hx
  obtain ⟨ly, gy⟩ := collect_some hy
  rw [show m + n = (x ++ y).length by simp [lx, ly]]
  apply collect_eq_some
  intro i hi
  by_cases h : i < m
  · rw [gx i h, List.getElem?_append_left (by omega)]
  · have := gy (i - m) (by rw [← ly]; simp at hi; omega)
    rw [show a + i = a + m + (i - m) by omega, this, List.getElem?_append_right (by omega), lx]

/-- A part of a string that holds a value. -/
theorem collect_part {rd : Nat → Option Byte} {n : Nat} {bs : List Byte} (h : collect rd 0 n = some bs) (a k : Nat)
    (hk : a + k ≤ n) : collect rd a k = some ((bs.drop a).take k) := by
  obtain ⟨l, g⟩ := collect_some h
  have e : k = ((bs.drop a).take k).length := by simp [l]; omega
  conv => lhs; rw [e]
  apply collect_eq_some
  intro i hi
  have hi' : i < k := by omega
  have := g (a + i) (by omega)
  rw [Nat.zero_add] at this
  rw [this]; simp [hi']

end Sys2Proof.Machine
end

