-- ==== Sys2Proof/Laws/State.lean ====
section
/-! SUPPORT. What each update of the state leaves and writes, field by field: for every register update of Machine/Ops.lean one conjunction of the fields' new values, which simp uses field by field. -/

namespace Sys2Proof.Machine

@[simp] theorem advance_fields (s : State) :
    (advance s).keybuf = s.keybuf ∧ (advance s).din = s.din ∧ (advance s).dout = s.dout ∧
    (advance s).cmd = s.cmd ∧ (advance s).phase = s.phase ∧ (advance s).err = s.err ∧
    (advance s).keylen = s.keylen ∧ (advance s).dlen = s.dlen ∧ (advance s).olen = s.olen ∧
    (advance s).traceEn = s.traceEn ∧ (advance s).K = s.K ∧ (advance s).RC = s.RC ∧ (advance s).W = s.W ∧
    (advance s).S = s.S ∧ (advance s).prog = s.prog ∧ (advance s).upc = s.upc + 1 ∧
    (advance s).blk = s.blk ∧ (advance s).nblk = s.nblk ∧ (advance s).encProg = s.encProg ∧
    (advance s).decProg = s.decProg ∧ (advance s).params = s.params ∧
    (advance s).held = { s.held with upc := true } ∧ (advance s).sched = s.sched ∧
    (advance s).answers = s.answers ∧ (advance s).trace = s.trace ∧ (advance s).free = s.free :=
  ⟨rfl, rfl, rfl, rfl, rfl, rfl, rfl, rfl, rfl, rfl, rfl, rfl, rfl, rfl, rfl, rfl, rfl, rfl, rfl, rfl, rfl, rfl, rfl, rfl, rfl, rfl⟩

@[simp] theorem jumpTo_fields (t : BitVec 6) (s : State) :
    (jumpTo t s).keybuf = s.keybuf ∧ (jumpTo t s).din = s.din ∧ (jumpTo t s).dout = s.dout ∧
    (jumpTo t s).cmd = s.cmd ∧ (jumpTo t s).phase = s.phase ∧ (jumpTo t s).err = s.err ∧
    (jumpTo t s).keylen = s.keylen ∧ (jumpTo t s).dlen = s.dlen ∧ (jumpTo t s).olen = s.olen ∧
    (jumpTo t s).traceEn = s.traceEn ∧ (jumpTo t s).K = s.K ∧ (jumpTo t s).RC = s.RC ∧
    (jumpTo t s).W = s.W ∧ (jumpTo t s).S = s.S ∧ (jumpTo t s).prog = s.prog ∧ (jumpTo t s).upc = t ∧
    (jumpTo t s).blk = s.blk ∧ (jumpTo t s).nblk = s.nblk ∧ (jumpTo t s).encProg = s.encProg ∧
    (jumpTo t s).decProg = s.decProg ∧ (jumpTo t s).params = s.params ∧
    (jumpTo t s).held = { s.held with upc := true } ∧ (jumpTo t s).sched = s.sched ∧
    (jumpTo t s).answers = s.answers ∧ (jumpTo t s).trace = s.trace ∧ (jumpTo t s).free = s.free :=
  ⟨rfl, rfl, rfl, rfl, rfl, rfl, rfl, rfl, rfl, rfl, rfl, rfl, rfl, rfl, rfl, rfl, rfl, rfl, rfl, rfl, rfl, rfl, rfl, rfl, rfl, rfl⟩

@[simp] theorem writeK_fields (v : Block) (s : State) :
    (writeK v s).keybuf = s.keybuf ∧ (writeK v s).din = s.din ∧ (writeK v s).dout = s.dout ∧
    (writeK v s).cmd = s.cmd ∧ (writeK v s).phase = s.phase ∧ (writeK v s).err = s.err ∧
    (writeK v s).keylen = s.keylen ∧ (writeK v s).dlen = s.dlen ∧ (writeK v s).olen = s.olen ∧
    (writeK v s).traceEn = s.traceEn ∧ (writeK v s).K = v ∧ (writeK v s).RC = s.RC ∧ (writeK v s).W = s.W ∧
    (writeK v s).S = s.S ∧ (writeK v s).prog = s.prog ∧ (writeK v s).upc = s.upc ∧
    (writeK v s).blk = s.blk ∧ (writeK v s).nblk = s.nblk ∧ (writeK v s).encProg = s.encProg ∧
    (writeK v s).decProg = s.decProg ∧ (writeK v s).params = s.params ∧
    (writeK v s).held = { s.held with K := true } ∧ (writeK v s).sched = s.sched ∧
    (writeK v s).answers = s.answers ∧ (writeK v s).trace = s.trace ∧ (writeK v s).free = s.free :=
  ⟨rfl, rfl, rfl, rfl, rfl, rfl, rfl, rfl, rfl, rfl, rfl, rfl, rfl, rfl, rfl, rfl, rfl, rfl, rfl, rfl, rfl, rfl, rfl, rfl, rfl, rfl⟩

@[simp] theorem writeRC_fields (v : Vector Byte 10) (s : State) :
    (writeRC v s).keybuf = s.keybuf ∧ (writeRC v s).din = s.din ∧ (writeRC v s).dout = s.dout ∧
    (writeRC v s).cmd = s.cmd ∧ (writeRC v s).phase = s.phase ∧ (writeRC v s).err = s.err ∧
    (writeRC v s).keylen = s.keylen ∧ (writeRC v s).dlen = s.dlen ∧ (writeRC v s).olen = s.olen ∧
    (writeRC v s).traceEn = s.traceEn ∧ (writeRC v s).K = s.K ∧ (writeRC v s).RC = v ∧
    (writeRC v s).W = s.W ∧ (writeRC v s).S = s.S ∧ (writeRC v s).prog = s.prog ∧
    (writeRC v s).upc = s.upc ∧ (writeRC v s).blk = s.blk ∧ (writeRC v s).nblk = s.nblk ∧
    (writeRC v s).encProg = s.encProg ∧ (writeRC v s).decProg = s.decProg ∧
    (writeRC v s).params = s.params ∧ (writeRC v s).held = { s.held with RC := true } ∧
    (writeRC v s).sched = s.sched ∧ (writeRC v s).answers = s.answers ∧ (writeRC v s).trace = s.trace ∧
    (writeRC v s).free = s.free :=
  ⟨rfl, rfl, rfl, rfl, rfl, rfl, rfl, rfl, rfl, rfl, rfl, rfl, rfl, rfl, rfl, rfl, rfl, rfl, rfl, rfl, rfl, rfl, rfl, rfl, rfl, rfl⟩

@[simp] theorem writeWord_fields (i : Fin 44) (v : Word) (s : State) :
    (writeWord i v s).keybuf = s.keybuf ∧ (writeWord i v s).din = s.din ∧ (writeWord i v s).dout = s.dout ∧
    (writeWord i v s).cmd = s.cmd ∧ (writeWord i v s).phase = s.phase ∧ (writeWord i v s).err = s.err ∧
    (writeWord i v s).keylen = s.keylen ∧ (writeWord i v s).dlen = s.dlen ∧
    (writeWord i v s).olen = s.olen ∧ (writeWord i v s).traceEn = s.traceEn ∧ (writeWord i v s).K = s.K ∧
    (writeWord i v s).RC = s.RC ∧ (writeWord i v s).W = s.W.set i.val v ∧ (writeWord i v s).S = s.S ∧
    (writeWord i v s).prog = s.prog ∧ (writeWord i v s).upc = s.upc ∧ (writeWord i v s).blk = s.blk ∧
    (writeWord i v s).nblk = s.nblk ∧ (writeWord i v s).encProg = s.encProg ∧
    (writeWord i v s).decProg = s.decProg ∧ (writeWord i v s).params = s.params ∧
    (writeWord i v s).held = { s.held with W := s.held.W.set i.val true } ∧
    (writeWord i v s).sched = s.sched ∧ (writeWord i v s).answers = s.answers ∧
    (writeWord i v s).trace = s.trace ∧ (writeWord i v s).free = s.free :=
  ⟨rfl, rfl, rfl, rfl, rfl, rfl, rfl, rfl, rfl, rfl, rfl, rfl, rfl, rfl, rfl, rfl, rfl, rfl, rfl, rfl, rfl, rfl, rfl, rfl, rfl, rfl⟩

@[simp] theorem writeBlk_fields (n : Nat) (s : State) :
    (writeBlk n s).keybuf = s.keybuf ∧ (writeBlk n s).din = s.din ∧ (writeBlk n s).dout = s.dout ∧
    (writeBlk n s).cmd = s.cmd ∧ (writeBlk n s).phase = s.phase ∧ (writeBlk n s).err = s.err ∧
    (writeBlk n s).keylen = s.keylen ∧ (writeBlk n s).dlen = s.dlen ∧ (writeBlk n s).olen = s.olen ∧
    (writeBlk n s).traceEn = s.traceEn ∧ (writeBlk n s).K = s.K ∧ (writeBlk n s).RC = s.RC ∧
    (writeBlk n s).W = s.W ∧ (writeBlk n s).S = s.S ∧ (writeBlk n s).prog = s.prog ∧
    (writeBlk n s).upc = s.upc ∧ (writeBlk n s).blk = n ∧ (writeBlk n s).nblk = s.nblk ∧
    (writeBlk n s).encProg = s.encProg ∧ (writeBlk n s).decProg = s.decProg ∧
    (writeBlk n s).params = s.params ∧ (writeBlk n s).held = { s.held with blk := true } ∧
    (writeBlk n s).sched = s.sched ∧ (writeBlk n s).answers = s.answers ∧ (writeBlk n s).trace = s.trace ∧
    (writeBlk n s).free = s.free :=
  ⟨rfl, rfl, rfl, rfl, rfl, rfl, rfl, rfl, rfl, rfl, rfl, rfl, rfl, rfl, rfl, rfl, rfl, rfl, rfl, rfl, rfl, rfl, rfl, rfl, rfl, rfl⟩

@[simp] theorem writeNblk_fields (n : Nat) (s : State) :
    (writeNblk n s).keybuf = s.keybuf ∧ (writeNblk n s).din = s.din ∧ (writeNblk n s).dout = s.dout ∧
    (writeNblk n s).cmd = s.cmd ∧ (writeNblk n s).phase = s.phase ∧ (writeNblk n s).err = s.err ∧
    (writeNblk n s).keylen = s.keylen ∧ (writeNblk n s).dlen = s.dlen ∧ (writeNblk n s).olen = s.olen ∧
    (writeNblk n s).traceEn = s.traceEn ∧ (writeNblk n s).K = s.K ∧ (writeNblk n s).RC = s.RC ∧
    (writeNblk n s).W = s.W ∧ (writeNblk n s).S = s.S ∧ (writeNblk n s).prog = s.prog ∧
    (writeNblk n s).upc = s.upc ∧ (writeNblk n s).blk = s.blk ∧ (writeNblk n s).nblk = n ∧
    (writeNblk n s).encProg = s.encProg ∧ (writeNblk n s).decProg = s.decProg ∧
    (writeNblk n s).params = s.params ∧ (writeNblk n s).held = { s.held with nblk := true } ∧
    (writeNblk n s).sched = s.sched ∧ (writeNblk n s).answers = s.answers ∧
    (writeNblk n s).trace = s.trace ∧ (writeNblk n s).free = s.free :=
  ⟨rfl, rfl, rfl, rfl, rfl, rfl, rfl, rfl, rfl, rfl, rfl, rfl, rfl, rfl, rfl, rfl, rfl, rfl, rfl, rfl, rfl, rfl, rfl, rfl, rfl, rfl⟩

@[simp] theorem writeS_fields (i : Instr) (m : Mat) (s : State) :
    (writeS i m s).keybuf = s.keybuf ∧ (writeS i m s).din = s.din ∧ (writeS i m s).dout = s.dout ∧
    (writeS i m s).cmd = s.cmd ∧ (writeS i m s).phase = s.phase ∧ (writeS i m s).err = s.err ∧
    (writeS i m s).keylen = s.keylen ∧ (writeS i m s).dlen = s.dlen ∧ (writeS i m s).olen = s.olen ∧
    (writeS i m s).traceEn = s.traceEn ∧ (writeS i m s).K = s.K ∧ (writeS i m s).RC = s.RC ∧
    (writeS i m s).W = s.W ∧ (writeS i m s).S = m ∧ (writeS i m s).prog = s.prog ∧
    (writeS i m s).upc = s.upc + 1 ∧ (writeS i m s).blk = s.blk ∧ (writeS i m s).nblk = s.nblk ∧
    (writeS i m s).encProg = s.encProg ∧ (writeS i m s).decProg = s.decProg ∧
    (writeS i m s).params = s.params ∧ (writeS i m s).held = { s.held with S := true, upc := true } ∧
    (writeS i m s).sched = s.sched ∧ (writeS i m s).answers = s.answers ∧
    (writeS i m s).trace = s.trace ++ traceEvents s i m ∧ (writeS i m s).free = s.free :=
  ⟨rfl, rfl, rfl, rfl, rfl, rfl, rfl, rfl, rfl, rfl, rfl, rfl, rfl, rfl, rfl, rfl, rfl, rfl, rfl, rfl, rfl, rfl, rfl, rfl, rfl, rfl⟩

@[simp] theorem dropS_fields (s : State) :
    (dropS s).keybuf = s.keybuf ∧ (dropS s).din = s.din ∧ (dropS s).dout = s.dout ∧ (dropS s).cmd = s.cmd ∧
    (dropS s).phase = s.phase ∧ (dropS s).err = s.err ∧ (dropS s).keylen = s.keylen ∧
    (dropS s).dlen = s.dlen ∧ (dropS s).olen = s.olen ∧ (dropS s).traceEn = s.traceEn ∧ (dropS s).K = s.K ∧
    (dropS s).RC = s.RC ∧ (dropS s).W = s.W ∧ (dropS s).S = s.S ∧ (dropS s).prog = s.prog ∧
    (dropS s).upc = s.upc ∧ (dropS s).blk = s.blk ∧ (dropS s).nblk = s.nblk ∧
    (dropS s).encProg = s.encProg ∧ (dropS s).decProg = s.decProg ∧ (dropS s).params = s.params ∧
    (dropS s).held = { s.held with S := false } ∧ (dropS s).sched = s.sched ∧
    (dropS s).answers = s.answers ∧ (dropS s).trace = s.trace ∧ (dropS s).free = s.free :=
  ⟨rfl, rfl, rfl, rfl, rfl, rfl, rfl, rfl, rfl, rfl, rfl, rfl, rfl, rfl, rfl, rfl, rfl, rfl, rfl, rfl, rfl, rfl, rfl, rfl, rfl, rfl⟩

@[simp] theorem endCommand_fields (s : State) :
    (endCommand s).keybuf = s.keybuf ∧ (endCommand s).din = s.din ∧ (endCommand s).dout = s.dout ∧
    (endCommand s).cmd = s.cmd ∧ (endCommand s).phase = s.phase ∧ (endCommand s).err = s.err ∧
    (endCommand s).keylen = s.keylen ∧ (endCommand s).dlen = s.dlen ∧ (endCommand s).olen = s.olen ∧
    (endCommand s).traceEn = s.traceEn ∧ (endCommand s).encProg = s.encProg ∧
    (endCommand s).decProg = s.decProg ∧ (endCommand s).params = s.params ∧
    (endCommand s).held = { Held.nothing with keylen := s.held.keylen, dlen := s.held.dlen } ∧
    (endCommand s).sched = s.sched ∧ (endCommand s).answers = s.answers ∧ (endCommand s).trace = s.trace ∧
    (endCommand s).free = s.free + 220 := by
  simp only [endCommand, and_self]

@[simp] theorem raise_fields (f : CoreFault) (s : State) :
    (raise f s).keybuf = s.keybuf ∧ (raise f s).din = s.din ∧ (raise f s).dout = s.dout ∧
    (raise f s).cmd = s.cmd ∧ (raise f s).phase = .fault ∧ (raise f s).err = some f ∧
    (raise f s).keylen = s.keylen ∧ (raise f s).dlen = s.dlen ∧ (raise f s).olen = 0 ∧
    (raise f s).traceEn = s.traceEn ∧ (raise f s).encProg = s.encProg ∧ (raise f s).decProg = s.decProg ∧
    (raise f s).params = s.params ∧
    (raise f s).held = { Held.nothing with keylen := s.held.keylen, dlen := s.held.dlen } ∧
    (raise f s).sched = s.sched ∧ (raise f s).answers = s.answers ∧ (raise f s).trace = s.trace ∧
    (raise f s).free = s.free + 220 := by
  simp only [raise, endCommand_fields, and_self]

@[simp] theorem finish_fields (s : State) :
    (finish s).keybuf = s.keybuf ∧ (finish s).din = s.din ∧ (finish s).dout = s.dout ∧
    (finish s).cmd = s.cmd ∧ (finish s).phase = .done ∧ (finish s).err = s.err ∧
    (finish s).keylen = s.keylen ∧ (finish s).dlen = s.dlen ∧ (finish s).olen = 16 * s.nblk ∧
    (finish s).traceEn = s.traceEn ∧ (finish s).encProg = s.encProg ∧ (finish s).decProg = s.decProg ∧
    (finish s).params = s.params ∧
    (finish s).held = { Held.nothing with keylen := s.held.keylen, dlen := s.held.dlen } ∧
    (finish s).sched = s.sched ∧ (finish s).answers = s.answers ∧ (finish s).trace = s.trace ∧
    (finish s).free = s.free + 220 := by
  simp only [finish, endCommand_fields, and_self]

@[simp] theorem enter_fields (p : ProgSel) (s : State) :
    (enter p s).keybuf = s.keybuf ∧ (enter p s).din = s.din ∧ (enter p s).dout = s.dout ∧
    (enter p s).cmd = s.cmd ∧ (enter p s).phase = .busy ∧ (enter p s).err = none ∧
    (enter p s).keylen = s.keylen ∧ (enter p s).dlen = s.dlen ∧ (enter p s).olen = s.olen ∧
    (enter p s).traceEn = s.traceEn ∧ (enter p s).K = s.K ∧ (enter p s).RC = s.RC ∧ (enter p s).W = s.W ∧
    (enter p s).S = s.S ∧ (enter p s).prog = p ∧ (enter p s).upc = 0 ∧ (enter p s).blk = s.blk ∧
    (enter p s).nblk = s.nblk ∧ (enter p s).encProg = s.encProg ∧ (enter p s).decProg = s.decProg ∧
    (enter p s).params = s.params ∧ (enter p s).held = { s.held with prog := true, upc := true } ∧
    (enter p s).sched = s.sched ∧ (enter p s).answers = s.answers ∧ (enter p s).trace = s.trace ∧
    (enter p s).free = s.free :=
  ⟨rfl, rfl, rfl, rfl, rfl, rfl, rfl, rfl, rfl, rfl, rfl, rfl, rfl, rfl, rfl, rfl, rfl, rfl, rfl, rfl, rfl, rfl, rfl, rfl, rfl, rfl⟩

@[simp] theorem latchCommand_fields (v : Byte) (s : State) :
    (latchCommand v s).keybuf = s.keybuf ∧ (latchCommand v s).din = s.din ∧
    (latchCommand v s).dout = s.dout ∧ (latchCommand v s).cmd = v ∧ (latchCommand v s).phase = s.phase ∧
    (latchCommand v s).err = s.err ∧ (latchCommand v s).keylen = s.keylen ∧
    (latchCommand v s).dlen = s.dlen ∧ (latchCommand v s).olen = 0 ∧
    (latchCommand v s).traceEn = s.traceEn ∧ (latchCommand v s).K = s.K ∧ (latchCommand v s).RC = s.RC ∧
    (latchCommand v s).W = s.W ∧ (latchCommand v s).S = s.S ∧ (latchCommand v s).prog = s.prog ∧
    (latchCommand v s).upc = s.upc ∧ (latchCommand v s).blk = s.blk ∧ (latchCommand v s).nblk = s.nblk ∧
    (latchCommand v s).encProg = s.encProg ∧ (latchCommand v s).decProg = s.decProg ∧
    (latchCommand v s).params = s.params ∧ (latchCommand v s).held = s.held ∧
    (latchCommand v s).sched = s.sched ∧ (latchCommand v s).answers = s.answers ∧
    (latchCommand v s).trace = s.trace ∧ (latchCommand v s).free = s.free :=
  ⟨rfl, rfl, rfl, rfl, rfl, rfl, rfl, rfl, rfl, rfl, rfl, rfl, rfl, rfl, rfl, rfl, rfl, rfl, rfl, rfl, rfl, rfl, rfl, rfl, rfl, rfl⟩

@[simp] theorem answer_fields (n : Nat) (s : State) :
    (answer n s).keybuf = s.keybuf ∧ (answer n s).din = s.din ∧ (answer n s).dout = s.dout ∧
    (answer n s).cmd = s.cmd ∧ (answer n s).phase = s.phase ∧ (answer n s).err = s.err ∧
    (answer n s).keylen = s.keylen ∧ (answer n s).dlen = s.dlen ∧ (answer n s).olen = s.olen ∧
    (answer n s).traceEn = s.traceEn ∧ (answer n s).K = s.K ∧ (answer n s).RC = s.RC ∧
    (answer n s).W = s.W ∧ (answer n s).S = s.S ∧ (answer n s).prog = s.prog ∧ (answer n s).upc = s.upc ∧
    (answer n s).blk = s.blk ∧ (answer n s).nblk = s.nblk ∧ (answer n s).encProg = s.encProg ∧
    (answer n s).decProg = s.decProg ∧ (answer n s).params = s.params ∧ (answer n s).held = s.held ∧
    (answer n s).sched = s.sched ∧ (answer n s).answers = s.answers ++ [n] ∧ (answer n s).trace = s.trace ∧
    (answer n s).free = s.free :=
  ⟨rfl, rfl, rfl, rfl, rfl, rfl, rfl, rfl, rfl, rfl, rfl, rfl, rfl, rfl, rfl, rfl, rfl, rfl, rfl, rfl, rfl, rfl, rfl, rfl, rfl, rfl⟩

/-- A ROM or a buffer byte depends on the buffers and the ROM images only. -/
theorem byteAt_congr {s t : State} (hk : t.keybuf = s.keybuf) (hd : t.din = s.din) (ho : t.dout = s.dout)
    (he : t.encProg = s.encProg) (hc : t.decProg = s.decProg) : SameMemory s t := by
  intro sp a
  cases sp <;> simp only [State.byteAt, hk, hd, ho, he, hc]

end Sys2Proof.Machine
end

