-- ==== Sys2Proof/Laws/Ops.lean ====
section
/-! SUPPORT. What the shared operations can do: MemRead, MemWrite and the composition of answers; every memory operation keeps the canonical form. -/

namespace Sys2Proof.Machine

@[simp] theorem Res.andThen_next {α β : Type} (a : α) (f : α → Res β) : Res.andThen (.next a) f = f a := rfl

@[simp] theorem Res.andThen_fault {α β : Type} (r : Fault) (f : α → Res β) :
    Res.andThen (.fault r) f = .fault r := rfl

@[simp] theorem Res.andThen_refused {α β : Type} (r : Refusal) (f : α → Res β) :
    Res.andThen (.refused r) f = .refused r := rfl

/-- A composed answer is a next state only when both parts are. -/
theorem Res.andThen_eq_next {α β : Type} {x : Res α} {f : α → Res β} {b : β} :
    Res.andThen x f = .next b ↔ ∃ a, x = .next a ∧ f a = .next b := by
  cases x <;> simp [Res.andThen]

/-- MemRead answers bytes exactly inside the space and where each holds a value. -/
theorem memRead_eq_next {s : State} {sp : Space} {a n : Nat} {bs : List Byte} :
    memRead s sp a n = .next bs ↔ s.inSpace sp a n = true ∧ collect (s.byteAt sp) a n = some bs := by
  unfold memRead
  split
  · rename_i h
    split <;> rename_i e <;> simp [h, e]
  · rename_i h; simp [h]

/-- What MemWrite of DOUT answers. -/
theorem memWrite_dout_eq_next {s t : State} {a : Nat} {v : List Byte} :
    memWrite s .dout a v = .next t ↔
      s.inSpace .dout a v.length = true ∧ t = { s with dout := Memory.writeAll s.dout a v } := by
  unfold memWrite
  split
  · rename_i h; simp [h, eq_comm]
  · rename_i h; simp [h]

/-- MemWrite keeps the canonical form of every buffer. -/
theorem memWrite_wf {s t : State} {sp : Space} {a : Nat} {v : List Byte} (h : memWrite s sp a v = .next t)
    (hk : Memory.wf s.keybuf) (hd : Memory.wf s.din) (ho : Memory.wf s.dout) :
    Memory.wf t.keybuf ∧ Memory.wf t.din ∧ Memory.wf t.dout := by
  unfold memWrite at h
  split at h
  · cases sp <;> simp only [reduceCtorEq, Host.Outcome.next.injEq] at h <;> subst h
    · exact ⟨Memory.writeAll_wf hk a v, hd, ho⟩
    · exact ⟨hk, Memory.writeAll_wf hd a v, ho⟩
    · exact ⟨hk, hd, Memory.writeAll_wf ho a v⟩
  · simp at h

/-- The same parameters give the same spaces. -/
theorem inSpace_congr {s t : State} (h : t.params = s.params) (sp : Space) (a n : Nat) :
    t.inSpace sp a n = s.inSpace sp a n := by
  cases sp <;> simp only [State.inSpace, State.spaceSize, h]

/-- An access inside the space reaches no byte outside it. -/
theorem inSpace_mono {s : State} {sp : Space} {a n a' n' : Nat} (h : s.inSpace sp a n = true)
    (hle : a' + n' ≤ a + n) : s.inSpace sp a' n' = true := by
  unfold State.inSpace at h ⊢
  split
  · rfl
  · rename_i z hz; rw [hz] at h; simp only [decide_eq_true_eq] at h ⊢; omega

end Sys2Proof.Machine
end

