-- ==== Sys2Proof/Laws/Exec.lean ====
section
/-! SUPPORT. The inversion of exec: everything an instruction can do when it answers a next state, said once. -/

namespace Sys2Proof.Machine

/-- Every selector of MIX and INVMIX is legal, so the transform is the matrix product and never a fault (R94). -/
theorem mixWith_ok {M : MixMatrix} (h : ∀ i k : Fin 4, legalConstant (M[i])[k] = true) (m : Mat) :
    mixWith M m = .ok (Mat.ofFn fun i c =>
      gfProduct (Mat.at m 0 c) (M[i])[0] ^^^ gfProduct (Mat.at m 1 c) (M[i])[1] ^^^
        gfProduct (Mat.at m 2 c) (M[i])[2] ^^^ gfProduct (Mat.at m 3 c) (M[i])[3]) := by
  have dot : ∀ (i : Fin 4) (a : Word), dotProduct M[i] a =
      .ok (gfProduct a[0] (M[i])[0] ^^^ gfProduct a[1] (M[i])[1] ^^^ gfProduct a[2] (M[i])[2] ^^^
        gfProduct a[3] (M[i])[3]) := by
    intro i a
    have h0 := h i 0
    have h1 := h i 1
    have h2 := h i 2
    have h3 := h i 3
    simp only [Fin.getElem_fin, Fin.val_zero, Fin.val_one, Fin.val_two] at h0 h1 h2
    have h3' : legalConstant (M[i])[3] = true := h3
    simp only [dotProduct, gfmul, Fin.getElem_fin, h0, h1, h2, ↓reduceIte, bind, Except.bind, pure, Except.pure]
    rw [if_pos (by simpa using h3')]
  have col : ∀ a : Word, mixColumn M a = .ok (Vector.ofFn fun i : Fin 4 =>
      gfProduct a[0] (M[i])[0] ^^^ gfProduct a[1] (M[i])[1] ^^^ gfProduct a[2] (M[i])[2] ^^^
        gfProduct a[3] (M[i])[3]) := by
    intro a
    have d0 := dot 0 a
    have d1 := dot 1 a
    have d2 := dot 2 a
    have d3 := dot 3 a
    simp only [Fin.getElem_fin, Fin.val_zero, Fin.val_one, Fin.val_two] at d0 d1 d2
    have d3' : dotProduct M[3] a = _ := d3
    simp only [mixColumn, d0, d1, d2, d3', bind, Except.bind, pure, Except.pure]
    congr 1
  simp only [mixWith, col, bind, Except.bind, pure, Except.pure]
  congr 1

theorem mixMatrix_legal : ∀ i k : Fin 4, legalConstant (mixMatrix[i])[k] = true := by decide

theorem invMixMatrix_legal : ∀ i k : Fin 4, legalConstant (invMixMatrix[i])[k] = true := by decide

/-- What an instruction does when it answers a next state. -/
inductive Effect (s : State) : Instr → State → Prop
  | keyload (key : List Byte) (hin : s.inSpace .keybuf 0 s.keylen.toNat = true)
      (hkey : collect (s.byteAt .keybuf) 0 s.keylen.toNat = some key) :
      Effect s .keyload (advance (seedWords (zext16 key) (writeK (zext16 key) s)))
  | rcongen : Effect s .rcongen (advance (writeRC (Vector.ofFn fun i => rconByte i.val) s))
  | kexpr (j : BitVec 4) (n : Fin 10) (h : expandIndex j = some n) :
      Effect s (.kexpr j) (advance (writeRoundKey n (expandRound s.W s.RC n) s))
  | pack (chunk : List Byte) (hin : s.inSpace .din (blockBase s) (chunkLength s) = true)
      (hchunk : collect (s.byteAt .din) (blockBase s) (chunkLength s) = some chunk) :
      Effect s .pack (writeS .pack (packBlock (zext16 chunk)) s)
  | unpack (hin : s.inSpace .dout (blockBase s) 16 = true) :
      Effect s .unpack
        (advance (dropS { s with dout := Memory.writeAll s.dout (blockBase s) (unpackMat s.S).toList }))
  | addroundkey (r : BitVec 4) (n : Fin 11) (h : r.toNat = n.val) :
      Effect s (.addroundkey r) (writeS (.addroundkey r) (addRoundKey (roundKey s.W n) s.S) s)
  | subbytes : Effect s .subbytes (writeS .subbytes (subBytes s.S) s)
  | invsubbytes : Effect s .invsubbytes (writeS .invsubbytes (invSubBytes s.S) s)
  | shiftrows : Effect s .shiftrows (writeS .shiftrows (shiftRows s.S) s)
  | invshiftrows : Effect s .invshiftrows (writeS .invshiftrows (invShiftRows s.S) s)
  | mixcolumns (m : Mat) (h : mixColumns s.S = .ok m) : Effect s .mixcolumns (writeS .mixcolumns m s)
  | invmixcolumns (m : Mat) (h : invMixColumns s.S = .ok m) : Effect s .invmixcolumns (writeS .invmixcolumns m s)
  | blktestOn (h : s.blk < s.nblk) : Effect s .blktest (advance s)
  | blktestEnd (h : ¬ s.blk < s.nblk) : Effect s .blktest (finish s)
  | nextblk : Effect s .nextblk (jumpTo loopHead (writeBlk (s.blk + 1) s))
  | chkargs (h : argumentFault s = none) :
      Effect s .chkargs (advance (writeBlk 0 (writeNblk (blockCount s.dlen) s)))
  | chkargsFault (f : CoreFault) (h : argumentFault s = some f) : Effect s .chkargs (raise f s)
  | encrypt (h : s.phase ≠ .busy) : Effect s .encrypt (enter .enc (latchCommand 0x01 s))
  | decrypt (h : s.phase ≠ .busy) : Effect s .decrypt (enter .dec (latchCommand 0x02 s))

/-- PACK never forms a chunk of more than 16 bytes. -/
theorem packChunk_collect {rd : Nat → Option Byte} {s : State} {a : Nat} {chunk : List Byte}
    (h : collect rd a (chunkLength s) = some chunk) : packChunk chunk = some (packBlock (zext16 chunk)) := by
  have hl := (collect_some h).1
  have : chunk.length ≤ 16 := by rw [hl]; exact Nat.min_le_left ..
  simp [packChunk, this]

/-- The inversion of exec. -/
theorem exec_effect {i : Instr} {s t : State} (h : exec i s = .next t) : Effect s i t := by
  cases i with
  | keyload =>
    obtain ⟨key, hr, ht⟩ := Res.andThen_eq_next.1 h
    obtain ⟨hin, hkey⟩ := memRead_eq_next.1 hr
    cases ht; exact .keyload key hin hkey
  | rcongen => cases h; exact .rcongen
  | kexpr j =>
    simp only [exec, execKexpr] at h
    split at h
    · rename_i n hn; cases h; exact .kexpr j n hn
    · simp at h
  | pack =>
    obtain ⟨chunk, hr, ht⟩ := Res.andThen_eq_next.1 h
    obtain ⟨hin, hc⟩ := memRead_eq_next.1 hr
    rw [packChunk_collect hc] at ht
    cases ht; exact .pack chunk hin hc
  | unpack =>
    obtain ⟨u, hw, ht⟩ := Res.andThen_eq_next.1 h
    obtain ⟨hin, hu⟩ := memWrite_dout_eq_next.1 hw
    subst hu; cases ht; exact .unpack (by simpa using hin)
  | addroundkey r =>
    simp only [exec, execAddroundkey, getSubkey] at h
    split at h
    · rename_i key hk
      split at hk
      · rename_i hr; cases hk; cases h; exact .addroundkey r ⟨r.toNat, hr⟩ rfl
      · simp at hk
    · simp at h
  | subbytes => cases h; exact .subbytes
  | invsubbytes => cases h; exact .invsubbytes
  | shiftrows => cases h; exact .shiftrows
  | invshiftrows => cases h; exact .invshiftrows
  | mixcolumns =>
    have hm := mixWith_ok mixMatrix_legal s.S
    simp only [exec, execMixcolumns, mixColumns, hm, writeSOrRaise, Host.Outcome.next.injEq] at h
    subst h; exact .mixcolumns _ hm
  | invmixcolumns =>
    have hm := mixWith_ok invMixMatrix_legal s.S
    simp only [exec, execInvmixcolumns, invMixColumns, hm, writeSOrRaise, Host.Outcome.next.injEq] at h
    subst h; exact .invmixcolumns _ hm
  | blktest =>
    simp only [exec, execBlktest, Host.Outcome.next.injEq] at h
    subst h
    split
    · rename_i hb; exact .blktestOn hb
    · rename_i hb; exact .blktestEnd hb
  | nextblk => cases h; exact .nextblk
  | chkargs =>
    simp only [exec, execChkargs, Host.Outcome.next.injEq] at h
    subst h
    split
    · rename_i f hf; exact .chkargsFault f hf
    · rename_i hf; exact .chkargs hf
  | encrypt =>
    simp only [exec, execEncrypt, unlessBusy] at h
    split at h
    · simp at h
    · rename_i hb; cases h; exact .encrypt hb
  | decrypt =>
    simp only [exec, execDecrypt, unlessBusy] at h
    split at h
    · simp at h
    · rename_i hb; cases h; exact .decrypt hb

end Sys2Proof.Machine
end

