-- ==== Sys2Proof/Laws/ExpandedKey.lean ====
section
/-! SUPPORT. The expanded key as its recurrence (spec 44_key_schedule.md R137): words 0 to 3 are the key, every other word comes from the words before it. -/

namespace Sys2Proof.Machine

/-- One step of the recurrence writes one word. -/
theorem recurrenceStep_get (W : Expanded) (i : Nat) (h : i < 44) (j : Nat) (hj : j < 44) :
    (recurrenceStep W i)[j] = if i = j then recurrenceWord W ⟨i, h⟩ else W[j] := by
  have : recurrenceStep W i = W.set i (recurrenceWord W ⟨i, h⟩) h := by unfold recurrenceStep; rw [dif_pos h]
  rw [this, Vector.getElem_set]

/-- The first `n` steps of the recurrence. -/
def partialKey (k : Block) (n : Nat) : Expanded := (List.range' 4 n).foldl recurrenceStep (seedExpanded k)

theorem partialKey_succ (k : Block) (n : Nat) : partialKey k (n + 1) = recurrenceStep (partialKey k n) (n + 4) := by
  simp [partialKey, List.range'_concat, List.foldl_append, Nat.add_comm]

/-- A word once computed stays. -/
theorem partialKey_stable (k : Block) (m n : Nat) (h : m ≤ n) (hn : n ≤ 40) (i : Nat) (hi : i < 44) (hm : i < m + 4) :
    (partialKey k n)[i] = (partialKey k m)[i] := by
  induction n with
  | zero =>
    have : m = 0 := by omega
    subst this; rfl
  | succ n ih =>
    by_cases h' : m = n + 1
    · subst h'; rfl
    · rw [← ih (by omega) (by omega)]
      simp only [partialKey_succ]
      rw [recurrenceStep_get _ _ (by omega), if_neg (by omega)]

/-- A word of the recurrence depends on the words before it only. -/
theorem recurrenceWord_congr {V W : Expanded} (i : Fin 44) (hi : 4 ≤ i.val)
    (h : ∀ (j : Nat) (hj : j < 44), j < i.val → V[j] = W[j]) : recurrenceWord V i = recurrenceWord W i := by
  have h1 := h (i.val - 1) (by omega) (by omega)
  have h4 := h (i.val - 4) (by omega) (by omega)
  simp only [recurrenceWord]
  rw [h1, h4]

theorem partialKey_rec (k : Block) (m : Nat) (h : m < 40) :
    (partialKey k 40)[m + 4] = recurrenceWord (partialKey k 40) ⟨m + 4, by omega⟩ := by
  have st := partialKey_stable k (m + 1) 40 (by omega) (by omega) (m + 4) (by omega) (by omega)
  have e : (partialKey k (m + 1))[m + 4] = recurrenceWord (partialKey k m) ⟨m + 4, by omega⟩ := by
    simp only [partialKey_succ]
    rw [recurrenceStep_get _ _ (by omega), if_pos rfl]
  refine st.trans (e.trans (recurrenceWord_congr _ (by simp) fun j hj hlt => ?_))
  exact (partialKey_stable k m 40 (by omega) (by omega) j hj hlt).symm

theorem expandKey_eq_partialKey (k : Block) : expandKey k = partialKey k 40 := rfl

/-- Words 0 to 3 of the expanded key are the key (R132). -/
theorem expandKey_seed (k : Block) (i : Nat) (h : i < 4) : (expandKey k)[i] = keyWord k ⟨i, h⟩ := by
  have st := partialKey_stable k 0 40 (by omega) (by omega) i (by omega) (by omega)
  have e : (partialKey k 0)[i] = keyWord k ⟨i, h⟩ := by simp [partialKey, seedExpanded, h]
  rw [expandKey_eq_partialKey]
  exact st.trans e

/-- Every later word is the recurrence's (R137). -/
theorem expandKey_rec (k : Block) (i : Fin 44) (h : 4 ≤ i.val) :
    (expandKey k)[i] = recurrenceWord (expandKey k) i := by
  obtain ⟨i, hi⟩ := i
  obtain ⟨m, rfl⟩ : ∃ m, i = m + 4 := ⟨i - 4, by simp at h; omega⟩
  simp only [expandKey_eq_partialKey, Fin.getElem_fin]
  exact partialKey_rec k m (by omega)

end Sys2Proof.Machine
end

