-- ==== Sys2Proof/Laws/KeySchedule.lean ====
section
/-! SUPPORT. What the writes of the key schedule leave and write: the seed words and a round key. -/

namespace Sys2Proof.Machine

theorem writeWord_get (i : Fin 44) (v : Word) (s : State) (n : Nat) (h : n < 44) :
    (writeWord i v s).W[n] = if i.val = n then v else s.W[n] := by
  simp only [writeWord, Vector.getElem_set]

theorem writeWord_held_get (i : Fin 44) (v : Word) (s : State) (n : Nat) (h : n < 44) :
    (writeWord i v s).held.W[n] = if i.val = n then true else s.held.W[n] := by
  simp only [writeWord, Vector.getElem_set]

@[simp] theorem seedWords_fields (k : Block) (s : State) :
    (seedWords k s).keybuf = s.keybuf ∧ (seedWords k s).din = s.din ∧ (seedWords k s).dout = s.dout ∧
    (seedWords k s).cmd = s.cmd ∧ (seedWords k s).phase = s.phase ∧ (seedWords k s).err = s.err ∧
    (seedWords k s).keylen = s.keylen ∧ (seedWords k s).dlen = s.dlen ∧ (seedWords k s).olen = s.olen ∧
    (seedWords k s).traceEn = s.traceEn ∧ (seedWords k s).K = s.K ∧ (seedWords k s).RC = s.RC ∧
    (seedWords k s).S = s.S ∧ (seedWords k s).prog = s.prog ∧ (seedWords k s).upc = s.upc ∧
    (seedWords k s).blk = s.blk ∧ (seedWords k s).nblk = s.nblk ∧ (seedWords k s).encProg = s.encProg ∧
    (seedWords k s).decProg = s.decProg ∧ (seedWords k s).params = s.params ∧
    (seedWords k s).sched = s.sched ∧ (seedWords k s).answers = s.answers ∧
    (seedWords k s).trace = s.trace ∧ (seedWords k s).free = s.free := by
  simp only [seedWords, writeWord_fields, and_self]

/-- The seed is words 0 to 3; every other word stays. -/
theorem seedWords_get (k : Block) (s : State) (i : Nat) (h : i < 44) :
    (seedWords k s).W[i] = if h' : i < 4 then keyWord k ⟨i, h'⟩ else s.W[i] := by
  simp only [seedWords, writeWord_get]
  by_cases h' : i < 4
  · have : i = 0 ∨ i = 1 ∨ i = 2 ∨ i = 3 := by omega
    rcases this with rfl | rfl | rfl | rfl <;> simp
  · rw [dif_neg h', if_neg (show ¬ (3 : Fin 44).val = i by simp; omega),
      if_neg (show ¬ (2 : Fin 44).val = i by simp; omega), if_neg (show ¬ (1 : Fin 44).val = i by simp; omega),
      if_neg (show ¬ (0 : Fin 44).val = i by simp; omega)]

/-- The seed gives no register but W a value, and takes none. -/
@[simp] theorem seedWords_held (k : Block) (s : State) :
    (seedWords k s).held.keylen = s.held.keylen ∧ (seedWords k s).held.dlen = s.held.dlen ∧
    (seedWords k s).held.K = s.held.K ∧ (seedWords k s).held.RC = s.held.RC ∧ (seedWords k s).held.S = s.held.S ∧
    (seedWords k s).held.prog = s.held.prog ∧ (seedWords k s).held.upc = s.held.upc ∧
    (seedWords k s).held.blk = s.held.blk ∧ (seedWords k s).held.nblk = s.held.nblk := by
  simp only [seedWords, writeWord_fields, and_self]

theorem seedWords_held_get (k : Block) (s : State) (i : Nat) (h : i < 44) :
    (seedWords k s).held.W[i] = (decide (i < 4) || s.held.W[i]) := by
  simp only [seedWords, writeWord_held_get]
  by_cases h' : i < 4
  · have : i = 0 ∨ i = 1 ∨ i = 2 ∨ i = 3 := by omega
    rcases this with rfl | rfl | rfl | rfl <;> simp
  · rw [if_neg (show ¬ (3 : Fin 44).val = i by simp; omega), if_neg (show ¬ (2 : Fin 44).val = i by simp; omega),
      if_neg (show ¬ (1 : Fin 44).val = i by simp; omega), if_neg (show ¬ (0 : Fin 44).val = i by simp; omega)]
    simp [h']

@[simp] theorem writeRoundKey_fields (j : Fin 10) (v : Vector Word 4) (s : State) :
    (writeRoundKey j v s).keybuf = s.keybuf ∧ (writeRoundKey j v s).din = s.din ∧
    (writeRoundKey j v s).dout = s.dout ∧ (writeRoundKey j v s).cmd = s.cmd ∧
    (writeRoundKey j v s).phase = s.phase ∧ (writeRoundKey j v s).err = s.err ∧
    (writeRoundKey j v s).keylen = s.keylen ∧ (writeRoundKey j v s).dlen = s.dlen ∧
    (writeRoundKey j v s).olen = s.olen ∧ (writeRoundKey j v s).traceEn = s.traceEn ∧
    (writeRoundKey j v s).K = s.K ∧ (writeRoundKey j v s).RC = s.RC ∧ (writeRoundKey j v s).S = s.S ∧
    (writeRoundKey j v s).prog = s.prog ∧ (writeRoundKey j v s).upc = s.upc ∧
    (writeRoundKey j v s).blk = s.blk ∧ (writeRoundKey j v s).nblk = s.nblk ∧
    (writeRoundKey j v s).encProg = s.encProg ∧ (writeRoundKey j v s).decProg = s.decProg ∧
    (writeRoundKey j v s).params = s.params ∧ (writeRoundKey j v s).sched = s.sched ∧
    (writeRoundKey j v s).answers = s.answers ∧ (writeRoundKey j v s).trace = s.trace ∧
    (writeRoundKey j v s).free = s.free := by
  simp only [writeRoundKey, writeWord_fields, and_self]

/-- Round key j + 1 is words 4j + 4 to 4j + 7; every other word stays. -/
theorem writeRoundKey_get (j : Fin 10) (v : Vector Word 4) (s : State) (i : Nat) (h : i < 44) :
    (writeRoundKey j v s).W[i] =
      if h' : 4 * j.val + 4 ≤ i ∧ i < 4 * j.val + 8 then v[i - (4 * j.val + 4)] else s.W[i] := by
  simp only [writeRoundKey, writeWord_get]
  by_cases h' : 4 * j.val + 4 ≤ i ∧ i < 4 * j.val + 8
  · obtain ⟨d, hd⟩ : ∃ d, i = 4 * j.val + 4 + d := ⟨i - (4 * j.val + 4), by omega⟩
    subst hd
    have : d = 0 ∨ d = 1 ∨ d = 2 ∨ d = 3 := by omega
    rcases this with rfl | rfl | rfl | rfl <;> simp
  · rw [dif_neg h', if_neg (by omega), if_neg (by omega), if_neg (by omega), if_neg (by omega)]

@[simp] theorem writeRoundKey_held (j : Fin 10) (v : Vector Word 4) (s : State) :
    (writeRoundKey j v s).held.keylen = s.held.keylen ∧ (writeRoundKey j v s).held.dlen = s.held.dlen ∧
    (writeRoundKey j v s).held.K = s.held.K ∧ (writeRoundKey j v s).held.RC = s.held.RC ∧
    (writeRoundKey j v s).held.S = s.held.S ∧ (writeRoundKey j v s).held.prog = s.held.prog ∧
    (writeRoundKey j v s).held.upc = s.held.upc ∧ (writeRoundKey j v s).held.blk = s.held.blk ∧
    (writeRoundKey j v s).held.nblk = s.held.nblk := by
  simp only [writeRoundKey, writeWord_fields, and_self]

theorem writeRoundKey_held_get (j : Fin 10) (v : Vector Word 4) (s : State) (i : Nat) (h : i < 44) :
    (writeRoundKey j v s).held.W[i] = (decide (4 * j.val + 4 ≤ i ∧ i < 4 * j.val + 8) || s.held.W[i]) := by
  simp only [writeRoundKey, writeWord_held_get]
  by_cases h' : 4 * j.val + 4 ≤ i ∧ i < 4 * j.val + 8
  · have : i = 4 * j.val + 4 ∨ i = 4 * j.val + 5 ∨ i = 4 * j.val + 6 ∨ i = 4 * j.val + 7 := by omega
    rcases this with rfl | rfl | rfl | rfl <;> simp
  · rw [if_neg (by omega), if_neg (by omega), if_neg (by omega), if_neg (by omega)]
    simp [h']

end Sys2Proof.Machine
end

