-- ==== Sys2Proof/Laws/Next.lean ====
section
/-! SUPPORT. When an instruction answers a next state, and which; the frames of the shared updates. -/

namespace Sys2Proof.Machine

theorem exec_keyload {s : State} {key : List Byte} (h : s.keylen.toNat ≤ 16)
    (hkey : collect (s.byteAt .keybuf) 0 s.keylen.toNat = some key) :
    exec .keyload s = .next (advance (seedWords (zext16 key) (writeK (zext16 key) s))) := by
  have : memRead s .keybuf 0 s.keylen.toNat = .next key :=
    memRead_eq_next.2 ⟨by simp [State.inSpace, State.spaceSize, h], hkey⟩
  simp only [exec, execKeyload, this, Res.andThen_next]

/-- The legal operands of KEXPR. -/
theorem expandIndex_ofNat (n : Fin 10) : expandIndex (BitVec.ofNat 4 (n.val + 1)) = some n := by
  revert n; decide

theorem exec_kexpr (s : State) (n : Fin 10) :
    exec (.kexpr (BitVec.ofNat 4 (n.val + 1))) s =
      .next (advance (writeRoundKey n (expandRound s.W s.RC n) s)) := by
  simp only [exec, execKexpr, expandIndex_ofNat]

theorem exec_pack {s : State} {chunk : List Byte} (h : s.inSpace .din (blockBase s) (chunkLength s) = true)
    (hchunk : collect (s.byteAt .din) (blockBase s) (chunkLength s) = some chunk) :
    exec .pack s = .next (writeS .pack (packBlock (zext16 chunk)) s) := by
  have := memRead_eq_next.2 ⟨h, hchunk⟩
  simp only [exec, execPack, this, Res.andThen_next, packChunk_collect hchunk]

/-- A block with a byte lies in DIN. -/
theorem block_inSpace {s : State} (h : s.params.size.admits s.dlen = true) (hlt : 16 * s.blk < s.dlen) :
    s.inSpace .din (blockBase s) (chunkLength s) = true := by
  have key : blockBase s + chunkLength s ≤ s.dlen := by unfold chunkLength blockBase; omega
  simp only [State.inSpace, State.spaceSize]
  revert h
  cases s.params.size with
  | unbounded => intro _; rfl
  | bounded d l => simp only [Config.Sizing.admits, decide_eq_true_eq]; omega

theorem exec_unpack {s : State} (h : s.inSpace .dout (blockBase s) 16 = true) :
    exec .unpack s = .next
      (advance (dropS { s with dout := Memory.writeAll s.dout (blockBase s) (unpackMat s.S).toList })) := by
  have : memWrite s .dout (blockBase s) (unpackMat s.S).toList = .next _ :=
    memWrite_dout_eq_next.2 ⟨by simpa using h, rfl⟩
  simp only [exec, execUnpack, this, Res.andThen_next]

theorem exec_addroundkey (s : State) (r : Fin 11) :
    exec (.addroundkey (BitVec.ofNat 4 r.val)) s =
      .next (writeS (.addroundkey (BitVec.ofNat 4 r.val)) (addRoundKey (roundKey s.W r) s.S) s) := by
  have e : (BitVec.ofNat 4 r.val).toNat = r.val := by simp; omega
  simp only [exec, execAddroundkey, e, getSubkey, r.isLt, dif_pos]

theorem exec_mixcolumns (s : State) :
    ∃ m, mixColumns s.S = .ok m ∧ exec .mixcolumns s = .next (writeS .mixcolumns m s) :=
  ⟨_, mixWith_ok mixMatrix_legal _,
    by simp only [exec, execMixcolumns, mixColumns, mixWith_ok mixMatrix_legal, writeSOrRaise]⟩

theorem exec_invmixcolumns (s : State) :
    ∃ m, invMixColumns s.S = .ok m ∧ exec .invmixcolumns s = .next (writeS .invmixcolumns m s) :=
  ⟨_, mixWith_ok invMixMatrix_legal _,
    by simp only [exec, execInvmixcolumns, invMixColumns, mixWith_ok invMixMatrix_legal, writeSOrRaise]⟩

theorem writeS_frame (i : Instr) (m : Mat) (s : State) : TransformFrame i s (writeS i m s) :=
  ⟨⟨by apply State.ext <;> simp, byteAt_congr (by simp) (by simp) (by simp) (by simp) (by simp)⟩, by simp,
    by simp, by simp⟩

theorem raise_frame (f : CoreFault) (s : State) : EndFrame s (raise f s) :=
  ⟨by apply State.ext <;> simp, by simp [InternalsDropped],
    byteAt_congr (by simp) (by simp) (by simp) (by simp) (by simp)⟩

theorem finish_frame (s : State) : EndFrame s (finish s) :=
  ⟨by apply State.ext <;> simp, by simp [InternalsDropped],
    byteAt_congr (by simp) (by simp) (by simp) (by simp) (by simp)⟩

end Sys2Proof.Machine
end

