-- ==== Sys2Proof/Laws/PerInstr.lean ====
section
/-! SUPPORT. The per-instruction family WordFields: the fields of an instruction's word are the operation of spec 30_encoding.md R72 and the operand of R71 (for a HOST command, the code of R76). -/

namespace Sys2Proof.Laws.WordFields

/-- R72: the operation nibble of an instruction; 0 for a HOST command, whose code is below 16 (R76). -/
def opOf : Instr → BitVec 4
  | .keyload => 0x1
  | .rcongen => 0x2
  | .kexpr _ => 0x3
  | .pack => 0x4
  | .unpack => 0x5
  | .addroundkey _ => 0x6
  | .subbytes => 0x7
  | .invsubbytes => 0x8
  | .shiftrows => 0x9
  | .invshiftrows => 0xA
  | .mixcolumns => 0xB
  | .invmixcolumns => 0xC
  | .blktest => 0xD
  | .nextblk => 0xE
  | .chkargs => 0xF
  | .encrypt | .decrypt => 0x0

/-- R71: the operand nibble of an instruction; for a HOST command its code (R76). -/
def argOf : Instr → BitVec 4
  | .kexpr j => j
  | .addroundkey r => r
  | .keyload | .rcongen | .pack | .unpack | .subbytes | .invsubbytes | .shiftrows | .invshiftrows | .mixcolumns
  | .invmixcolumns | .blktest | .nextblk | .chkargs => 0
  | .encrypt => 1
  | .decrypt => 2

/-- The two fields of the encoded word. -/
def Statement (i : Instr) : Prop := opField (encode i) = opOf i ∧ argField (encode i) = argOf i

/-- OP and ARG of a word put together from them. -/
theorem fields_microWord (op arg : BitVec 4) : opField (microWord op arg) = op ∧ argField (microWord op arg) = arg := by
  constructor <;> (revert op arg; decide)

theorem keyload : Statement .keyload := fields_microWord _ _
theorem rcongen : Statement .rcongen := fields_microWord _ _
theorem kexpr (j : BitVec 4) : Statement (.kexpr j) := fields_microWord _ _
theorem pack : Statement .pack := fields_microWord _ _
theorem unpack : Statement .unpack := fields_microWord _ _
theorem addroundkey (r : BitVec 4) : Statement (.addroundkey r) := fields_microWord _ _
theorem subbytes : Statement .subbytes := fields_microWord _ _
theorem invsubbytes : Statement .invsubbytes := fields_microWord _ _
theorem shiftrows : Statement .shiftrows := fields_microWord _ _
theorem invshiftrows : Statement .invshiftrows := fields_microWord _ _
theorem mixcolumns : Statement .mixcolumns := fields_microWord _ _
theorem invmixcolumns : Statement .invmixcolumns := fields_microWord _ _
theorem blktest : Statement .blktest := fields_microWord _ _
theorem nextblk : Statement .nextblk := fields_microWord _ _
theorem chkargs : Statement .chkargs := fields_microWord _ _
theorem encrypt : Statement .encrypt := ⟨rfl, rfl⟩
theorem decrypt : Statement .decrypt := ⟨rfl, rfl⟩

end Sys2Proof.Laws.WordFields
end

