-- ==== Sys2Proof/Laws/Step.lean ====
section
/-! SUPPORT. The inversion of step: everything a step can do when it answers a next state, said once. -/

namespace Sys2Proof.Machine

/-- The state once the event of this step has been taken off the schedule. -/
def takeEvent (s : State) : State := { s with sched := s.sched.tail }

@[simp] theorem takeEvent_fields (s : State) :
    (takeEvent s).keybuf = s.keybuf ∧ (takeEvent s).din = s.din ∧ (takeEvent s).dout = s.dout ∧
    (takeEvent s).cmd = s.cmd ∧ (takeEvent s).phase = s.phase ∧ (takeEvent s).err = s.err ∧
    (takeEvent s).keylen = s.keylen ∧ (takeEvent s).dlen = s.dlen ∧ (takeEvent s).olen = s.olen ∧
    (takeEvent s).traceEn = s.traceEn ∧ (takeEvent s).K = s.K ∧ (takeEvent s).RC = s.RC ∧
    (takeEvent s).W = s.W ∧ (takeEvent s).S = s.S ∧ (takeEvent s).prog = s.prog ∧
    (takeEvent s).upc = s.upc ∧ (takeEvent s).blk = s.blk ∧ (takeEvent s).nblk = s.nblk ∧
    (takeEvent s).encProg = s.encProg ∧ (takeEvent s).decProg = s.decProg ∧
    (takeEvent s).params = s.params ∧ (takeEvent s).held = s.held ∧ (takeEvent s).sched = s.sched.tail ∧
    (takeEvent s).answers = s.answers ∧ (takeEvent s).trace = s.trace ∧ (takeEvent s).free = s.free :=
  ⟨rfl, rfl, rfl, rfl, rfl, rfl, rfl, rfl, rfl, rfl, rfl, rfl, rfl, rfl, rfl, rfl, rfl, rfl, rfl, rfl, rfl, rfl, rfl, rfl, rfl, rfl⟩

/-- What a step does when it answers a next state. -/
inductive StepEffect (s : State) : State → Prop
  | idle (hc : coreMoves s = true) (hp : s.phase ≠ .busy) : StepEffect s (takeEvent s)
  | run (hc : coreMoves s = true) (hp : s.phase = .busy) (i : Instr) (hi : fetched s = some i) (t : State)
      (he : Effect (takeEvent s) i t) : StepEffect s t
  | badFetch (hc : coreMoves s = true) (hp : s.phase = .busy) (hi : fetched s = none) :
      StepEffect s (raise .illegalMicroOp (takeEvent s))
  | encrypt (hc : coreMoves s = false) (hp : s.phase ≠ .busy) :
      StepEffect s (enter .enc (latchCommand 0x01 (takeEvent s)))
  | decrypt (hc : coreMoves s = false) (hp : s.phase ≠ .busy) :
      StepEffect s (enter .dec (latchCommand 0x02 (takeEvent s)))
  | badCommand (hc : coreMoves s = false) (hp : s.phase ≠ .busy) (v : Byte) :
      StepEffect s (raise .illegalCommand (latchCommand v (takeEvent s)))
  | read (hc : coreMoves s = false) (n : Nat) : StepEffect s (answer n (takeEvent s))
  | ignored (hc : coreMoves s = false) (hp : s.phase ≠ .busy) : StepEffect s (takeEvent s)
  | keylen (hc : coreMoves s = false) (hp : s.phase ≠ .busy) (v : Nat) :
      StepEffect s { s with sched := s.sched.tail, keylen := keylenOf v, held := { s.held with keylen := true } }
  | dlen (hc : coreMoves s = false) (hp : s.phase ≠ .busy) (v : Nat) (h : s.params.size.admits v = true) :
      StepEffect s { s with sched := s.sched.tail, dlen := v, held := { s.held with dlen := true } }
  | ctrl (hc : coreMoves s = false) (hp : s.phase ≠ .busy) (v : Byte) :
      StepEffect s { s with sched := s.sched.tail, traceEn := traceEnable s.params v }
  | keybuf (hc : coreMoves s = false) (hp : s.phase ≠ .busy) (a : Nat) (b : Byte)
      (h : s.inSpace .keybuf a 1 = true) :
      StepEffect s { s with sched := s.sched.tail, keybuf := Memory.write s.keybuf a b }
  | din (hc : coreMoves s = false) (hp : s.phase ≠ .busy) (a : Nat) (b : Byte) (h : s.inSpace .din a 1 = true) :
      StepEffect s { s with sched := s.sched.tail, din := Memory.write s.din a b }
  | reset (rest : List Event) (hs : s.sched = .reset :: rest) : StepEffect s (resetCore (takeEvent s))

theorem decodeCommand_ok {v : Byte} {i : Instr} (h : decodeCommand v = .ok i) :
    v = 0x01 ∧ i = .encrypt ∨ v = 0x02 ∧ i = .decrypt := by
  have key : ∀ v : Byte, ∀ i ∈ (decodeCommand v).toOption, v = 0x01 ∧ i = .encrypt ∨ v = 0x02 ∧ i = .decrypt := by
    decide
  exact key v i (by rw [h]; rfl)

theorem decodeCommand_error {v : Byte} {r : DecodeReject} (h : decodeCommand v = .error r) : v ≠ 0x01 ∧ v ≠ 0x02 := by
  constructor <;> rintro rfl <;> simp [decodeCommand] at h

/-- In the CORE's turn a step is its turn, the event taken off the schedule. -/
theorem step_of_coreMoves {s : State} (h : coreMoves s = true) : step s = coreTurn (takeEvent s) := by
  unfold coreMoves at h
  unfold step takeEvent
  split at h <;> simp_all
  cases s; simp_all

theorem CoreNext.coreMoves {s : State} {rest : List Event} (h : CoreNext s rest) : coreMoves s = true := by
  rcases h with ⟨h, -⟩ | h <;> simp [Machine.coreMoves, h]

theorem CoreNext.takeEvent {s : State} {rest : List Event} (h : CoreNext s rest) : takeEvent s = { s with sched := rest } := by
  rcases h with ⟨h, rfl⟩ | h <;> simp [Machine.takeEvent, h]

/-- The same, with what the schedule then holds. -/
theorem CoreNext.step_eq {s : State} {rest : List Event} (h : CoreNext s rest) : step s = coreTurn { s with sched := rest } := by
  rw [step_of_coreMoves h.coreMoves, h.takeEvent]

theorem coreTurn_effect {s t : State} (hc : coreMoves s = true) (h : coreTurn (takeEvent s) = .next t) :
    StepEffect s t := by
  simp only [coreTurn] at h
  split at h
  · rename_i hp
    split at h
    · rename_i i hi
      exact .run hc hp i hi t (exec_effect h)
    · rename_i hi
      cases h; exact .badFetch hc hp hi
  · rename_i hp
    cases h; exact .idle hc hp

theorem unlessBusy_eq_next {s t : State} {x : Res State} :
    unlessBusy s x = .next t ↔ s.phase ≠ .busy ∧ x = .next t := by
  unfold unlessBusy; split <;> rename_i h <;> simp [h]

theorem commandWrite_effect {s t : State} {v : Byte} (hc : coreMoves s = false)
    (h : commandWrite v (takeEvent s) = .next t) : StepEffect s t := by
  simp only [commandWrite] at h
  split at h
  · rename_i i hi
    rcases decodeCommand_ok hi with ⟨-, rfl⟩ | ⟨-, rfl⟩
    · cases exec_effect h; exact .encrypt hc ‹_›
    · cases exec_effect h; exact .decrypt hc ‹_›
  · rename_i r hr
    obtain ⟨h1, h2⟩ := decodeCommand_error hr
    obtain ⟨hp, ht⟩ := unlessBusy_eq_next.1 h
    simp only [startCommand, h1, h2, if_false, Host.Outcome.next.injEq] at ht
    subst ht; exact .badCommand hc hp v

theorem writeControl_effect {s t : State} {cr v : Nat} (hc : coreMoves s = false) (hp : s.phase ≠ .busy)
    (h : writeControl cr v (takeEvent s) = .next t) : StepEffect s t := by
  unfold writeControl at h
  split at h
  · cases h; exact .ignored hc hp
  · cases h; exact .keylen hc hp v
  · unfold writeDlen at h
    split at h
    · rename_i ha; cases h; exact .dlen hc hp v ha
    · simp at h
  · cases h; exact .ignored hc hp
  · split at h
    · cases h; exact .ctrl hc hp _
    · simp at h
  · simp at h

theorem hostAccess_effect {s t : State} {m : HostMove} (hc : coreMoves s = false)
    (h : hostAccess m (takeEvent s) = .next t) : StepEffect s t := by
  cases m with
  | readCr cr =>
    simp only [hostAccess, hostReadCr] at h
    split at h
    · simp at h
    · split at h
      · cases h; exact .read hc _
      · simp at h
  | writeCr cr v =>
    obtain ⟨hp, h⟩ := unlessBusy_eq_next.1 h
    exact writeControl_effect hc hp h
  | writeSpace sp a b =>
    obtain ⟨hp, h⟩ := unlessBusy_eq_next.1 h
    cases sp <;> simp only [hostWriteSpace, reduceCtorEq] at h
    · simp only [memWrite, List.length_singleton] at h
      split at h
      · rename_i hin; cases h; exact .keybuf hc hp a b hin
      · simp at h
    · simp only [memWrite, List.length_singleton] at h
      split at h
      · rename_i hin; cases h; exact .din hc hp a b hin
      · simp at h
  | readSpace sp a =>
    obtain ⟨hp, h⟩ := unlessBusy_eq_next.1 h
    cases sp <;> simp only [hostReadSpace, reduceCtorEq] at h
    split at h
    · obtain ⟨bs, -, ht⟩ := Res.andThen_eq_next.1 h
      cases ht; exact .read hc _
    · simp at h

/-- The inversion of step. -/
theorem step_effect {s t : State} (h : step s = .next t) : StepEffect s t := by
  cases hc : coreMoves s with
  | true => exact coreTurn_effect hc (step_of_coreMoves hc ▸ h)
  | false =>
    unfold step at h
    split at h
    · rename_i hs; simp [coreMoves, hs] at hc
    · rename_i rest hs; simp [coreMoves, hs] at hc
    · rename_i m rest hs
      rw [show { s with sched := rest } = takeEvent s by simp [takeEvent, hs]] at h
      unfold hostTurn at h
      split at h
      · exact commandWrite_effect hc h
      · exact hostAccess_effect hc h
    · rename_i rest hs
      rw [show { s with sched := rest } = takeEvent s by simp [takeEvent, hs]] at h
      cases h; exact .reset rest hs

end Sys2Proof.Machine
end

