-- ==== Sys2Proof/Laws/Run.lean ====
section
/-! SUPPORT. Runs: the steps of a machine composed, the instructions the constant ROMs hold, a straight run of micro-ops as the instructions one after the other. -/

namespace Sys2Proof.Machine

theorem step_nil {s : State} (h : s.sched = []) : step s = coreTurn s := by simp only [step, h]

theorem run_succ {s t : State} (n : Nat) (h : step s = .next t) :
    Host.Core.run core (n + 1) s = Host.Core.run core n t := by
  simp only [Host.Core.run]; rw [show core.step s = .next t from h]

theorem run_add {s t : State} (m n : Nat) (h : Host.Core.run core m s = .next t) :
    Host.Core.run core (m + n) s = Host.Core.run core n t := by
  induction m generalizing s with
  | zero => simp only [Host.Core.run] at h; cases h; simp
  | succ m ih =>
    simp only [Host.Core.run] at h
    split at h
    · rename_i s' hs; rw [Nat.add_right_comm, run_succ _ hs]; exact ih h
    · cases h
    · cases h

theorem execAll_cons {i : Instr} {l : List Instr} {s t : State} (h : exec i s = .next t) :
    execAll (i :: l) s = execAll l t := by simp only [execAll, h, Res.andThen_next]

theorem execAll_append (l m : List Instr) (s : State) :
    execAll (l ++ m) s = Res.andThen (execAll l s) (execAll m) := by
  induction l generalizing s with
  | nil => rfl
  | cons i l ih => simp only [List.cons_append, execAll]; cases exec i s <;> simp [ih]

/-- The micro-program PROG selects, as instructions (R175, R176). -/
def programOf : ProgSel → List Instr
  | .enc => microProgram encBlockOps
  | .dec => microProgram decBlockOps

theorem rom_decodes : ∀ u : Fin 57, (decodeMicro encProgram[u]).toOption = (programOf .enc)[u.val]? ∧
    (decodeMicro decProgram[u]).toOption = (programOf .dec)[u.val]? := by decide

/-- What the sequencer fetches from the constant ROMs. -/
theorem fetched_rom {s : State} (he : s.encProg = encProgram) (hd : s.decProg = decProgram) (hu : s.upc.toNat < 57) :
    fetched s = (programOf s.prog)[s.upc.toNat]? := by
  obtain ⟨h1, h2⟩ := rom_decodes ⟨s.upc.toNat, hu⟩
  have g : ∀ x : Except DecodeReject Instr, (match x with | .ok i => some i | .error _ => none) = x.toOption := by
    intro x; cases x <;> rfl
  simp only [fetched, fetchWord]
  cases hp : s.prog
  · have : s.byteAt .encProg s.upc.toNat = some encProgram[s.upc.toNat] := by
      simp only [State.byteAt, he]; exact Vector.getElem?_eq_getElem (by omega)
    simp only [ProgSel.space, this]; exact (g _).trans h1
  · have : s.byteAt .decProg s.upc.toNat = some decProgram[s.upc.toNat] := by
      simp only [State.byteAt, hd]; exact Vector.getElem?_eq_getElem (by omega)
    simp only [ProgSel.space, this]; exact (g _).trans h2

theorem upc_succ {s : State} (h : s.upc.toNat ≤ 56) : (s.upc + 1).toNat = s.upc.toNat + 1 := by
  rw [BitVec.toNat_add]; simp; omega

/-- A running command of the constant ROMs with no event pending. -/
structure Running (s : State) : Prop where
  busy : s.phase = .busy
  turn : s.sched = []
  enc : s.encProg = encProgram
  dec : s.decProg = decProgram

theorem Running.step {s : State} (h : Running s) (hu : s.upc.toNat < 57) {i : Instr}
    (hi : (programOf s.prog)[s.upc.toNat]? = some i) : step s = exec i s := by
  rw [step_nil h.turn]; unfold coreTurn; rw [if_pos h.busy, fetched_rom h.enc h.dec hu, hi]

/-- What every micro-op but the three control micro-ops leaves. -/
structure SameControl (s t : State) : Prop where
  keybuf : t.keybuf = s.keybuf
  din : t.din = s.din
  phase : t.phase = s.phase
  err : t.err = s.err
  keylen : t.keylen = s.keylen
  dlen : t.dlen = s.dlen
  olen : t.olen = s.olen
  prog : t.prog = s.prog
  blk : t.blk = s.blk
  nblk : t.nblk = s.nblk
  enc : t.encProg = s.encProg
  dec : t.decProg = s.decProg
  params : t.params = s.params
  sched : t.sched = s.sched

theorem SameControl.refl (s : State) : SameControl s s := by constructor <;> rfl

theorem SameControl.trans {s t u : State} (h : SameControl s t) (g : SameControl t u) : SameControl s u :=
  ⟨g.1.trans h.1, g.2.trans h.2, g.3.trans h.3, g.4.trans h.4, g.5.trans h.5, g.6.trans h.6, g.7.trans h.7,
    g.8.trans h.8, g.9.trans h.9, g.10.trans h.10, g.11.trans h.11, g.12.trans h.12, g.13.trans h.13, g.14.trans h.14⟩

theorem Running.congr {s t : State} (h : Running s) (g : SameControl s t) : Running t :=
  ⟨g.phase.trans h.busy, g.sched.trans h.turn, g.enc.trans h.enc, g.dec.trans h.dec⟩

/-- The micro-ops that go on to the next index and change no control register. -/
def straight : Instr → Bool
  | .blktest | .nextblk | .chkargs | .encrypt | .decrypt => false
  | .keyload | .rcongen | .kexpr _ | .pack | .unpack | .addroundkey _ | .subbytes | .invsubbytes | .shiftrows
  | .invshiftrows | .mixcolumns | .invmixcolumns => true

theorem straight_effect {i : Instr} {s t : State} (hi : straight i = true) (h : exec i s = .next t) :
    SameControl s t ∧ t.upc = s.upc + 1 := by
  cases exec_effect h <;> simp only [straight, Bool.false_eq_true] at hi <;> exact ⟨by constructor <;> simp, by simp⟩

/-- A straight run of the program is its instructions one after the other, BUSY throughout. -/
theorem run_straight (l rest : List Instr) (s t : State) (h : Running s)
    (hl : (programOf s.prog).drop s.upc.toNat = l ++ rest) (hst : l.all straight = true)
    (hx : execAll l s = .next t) :
    SameControl s t ∧ t.upc.toNat = s.upc.toNat + l.length ∧
      (∀ n, n ≤ l.length → ∃ v : State, Host.Core.run core n s = .next v ∧ v.phase = .busy) ∧
      Host.Core.run core l.length s = .next t := by
  have len : ∀ p, (programOf p).length = 57 := by intro p; cases p <;> decide
  induction l generalizing s with
  | nil =>
    cases hx
    refine ⟨SameControl.refl _, by simp, fun n hn => ?_, rfl⟩
    have : n = 0 := by simpa using hn
    subst this; exact ⟨_, rfl, h.busy⟩
  | cons i l ih =>
    obtain ⟨s1, h1, h2⟩ := Res.andThen_eq_next.1 hx
    simp only [List.all_cons, Bool.and_eq_true] at hst
    obtain ⟨c, hu⟩ := straight_effect hst.1 h1
    have hlt : s.upc.toNat < 57 := by
      have := congrArg List.length hl
      simp only [List.length_drop, len, List.length_append, List.length_cons] at this; omega
    have hi : (programOf s.prog)[s.upc.toNat]? = some i := by
      have := congrArg (fun l => l[0]?) hl
      simpa using this
    have hs : Machine.step s = .next s1 := (h.step hlt hi).trans h1
    have e : s1.upc.toNat = s.upc.toNat + 1 := by rw [hu]; exact upc_succ (by omega)
    obtain ⟨c', hu', hb, hr⟩ :=
      ih s1 (h.congr c) (by rw [c.prog, e, ← List.drop_drop, hl]; rfl) hst.2 h2
    refine ⟨c.trans c', by rw [hu', e, List.length_cons]; omega, fun n hn => ?_, ?_⟩
    · cases n with
      | zero => exact ⟨s, rfl, h.busy⟩
      | succ n => rw [run_succ _ hs]; exact hb n (by simpa using hn)
    · rw [List.length_cons, run_succ _ hs]; exact hr

end Sys2Proof.Machine
end

