-- ==== Sys2Proof/Tests/Slice0.lean ====
section
/-! SUPPORT. The model's own tests: words and values from the spec (30_encoding.md, 95_test_vectors.md), and for every statement with hypotheses a state and operands that meet them. -/

namespace Sys2Proof.Tests

open Sys2Proof Sys2Proof.Machine

/-! ### Helpers -/

/-- The `n` bytes of a hexadecimal numeral, leftmost first. -/
def bytes (n x : Nat) : List Byte := (List.range n).map fun i => BitVec.ofNat 8 (x >>> (8 * (n - 1 - i)))

def block (x : Nat) : Block := Vector.ofFn fun i => BitVec.ofNat 8 (x >>> (8 * (15 - i.val)))

def word (x : Nat) : Word := Vector.ofFn fun i => BitVec.ofNat 8 (x >>> (8 * (3 - i.val)))

/-- A buffer that holds a byte string from offset 0 on. -/
def buffer (bs : List Byte) : Memory := (List.range bs.length).zip bs

def heldAll : Held :=
  { keylen := true, dlen := true, K := true, RC := true, W := Vector.replicate 44 true, S := true, prog := true,
    upc := true, blk := true, nblk := true }

/-- A running command about to run index `u` of the micro-program `p`. -/
def running (p : ProgSel) (u : BitVec 6) : State :=
  { State.reset with phase := .busy, prog := p, upc := u, held := heldAll }

/-- The arguments of a command in place: a key and a message. -/
def loaded (key msg : List Byte) : State :=
  { State.reset with
    keylen := BitVec.ofNat 8 key.length, keybuf := buffer key, dlen := msg.length, din := buffer msg
    held := { Held.nothing with keylen := true, dlen := true } }

/-- The state matrix in unpack order. -/
def withS (x : Nat) : State := { running .enc 20 with S := packBlock (block x) }

def after {α : Type} (r : Res State) (f : State → α) : Option α :=
  match r with
  | .next t => some (f t)
  | .fault _ | .refused _ => none

def keyV1 : Nat := 0x000102030405060708090a0b0c0d0e0f

/-! ### Well-formedness: an ill-formed term for each check -/

theorem test_wf_kexpr_zero : Instr.wf (.kexpr 0) = false := by decide
theorem test_wf_kexpr_eleven : Instr.wf (.kexpr 11) = false := by decide
theorem test_wf_addroundkey_eleven : Instr.wf (.addroundkey 11) = false := by decide
theorem test_wf_ends : Instr.wf (.kexpr 1) = true ∧ Instr.wf (.kexpr 10) = true ∧ Instr.wf (.addroundkey 0) = true ∧
    Instr.wf (.addroundkey 10) = true := by decide

/-! ### Decoding: words of R72, R74 and D27, written bit by bit -/

theorem test_decode_key_schedule : decodeMicro 0b00010000 = .ok .keyload ∧ decodeMicro 0b00100000 = .ok .rcongen ∧
    decodeMicro 0b00110001 = .ok (.kexpr 1) ∧ decodeMicro 0b00111010 = .ok (.kexpr 10) := by decide
theorem test_decode_codec : decodeMicro 0b01000000 = .ok .pack ∧ decodeMicro 0b01010000 = .ok .unpack := by decide
theorem test_decode_transforms : decodeMicro 0b01100000 = .ok (.addroundkey 0) ∧
    decodeMicro 0b01101010 = .ok (.addroundkey 10) ∧ decodeMicro 0b01110000 = .ok .subbytes ∧
    decodeMicro 0b10000000 = .ok .invsubbytes ∧ decodeMicro 0b10010000 = .ok .shiftrows ∧
    decodeMicro 0b10100000 = .ok .invshiftrows ∧ decodeMicro 0b10110000 = .ok .mixcolumns ∧
    decodeMicro 0b11000000 = .ok .invmixcolumns := by decide
theorem test_decode_control : decodeMicro 0b11010000 = .ok .blktest ∧ decodeMicro 0b11100000 = .ok .nextblk ∧
    decodeMicro 0b11110000 = .ok .chkargs := by decide
theorem test_decode_commands : decodeCommand 0b00000001 = .ok .encrypt ∧ decodeCommand 0b00000010 = .ok .decrypt := by
  decide
theorem test_decode_illegal : ∀ w ∈ ([0x00, 0x01, 0x0F, 0x11, 0x30, 0x3B, 0x41, 0x6B, 0xD1, 0xFF] : List Byte),
    decodeMicro w = .error (.illegalMicroOp w) := by decide
theorem test_decode_illegal_command : ∀ v ∈ ([0x00, 0x03, 0x10, 0xFF] : List Byte),
    decodeCommand v = .error (.illegalCommand v) := by decide
theorem test_table_words : decodeTableWord 8 0x3A = some (.kexpr 10) ∧ decodeTableWord 8 0x02 = some .decrypt ∧
    decodeTableWord 8 0x6B = none := by decide
/-- R79: a string of words decodes word by word. -/
theorem test_decode_program : decodeProgram [0xF0, 0x10, 0x31] = .ok [.chkargs, .keyload, .kexpr 1] := by decide

/-! ### One step of each instruction -/

/-- D8: the key 6b65793031, five bytes. -/
theorem test_keyload : after (exec .keyload (loaded (bytes 5 0x6b65793031) [])) (fun t => (t.K, t.W[0], t.W[1], t.W[2])) =
    some (block 0x6b657930310000000000000000000000, word 0x6b657930, word 0x31000000, word 0) := by decide +kernel
/-- D7. -/
theorem test_rcongen : after (exec .rcongen (running .enc 2)) (fun t => t.RC) =
    some #v[0x01, 0x02, 0x04, 0x08, 0x10, 0x20, 0x40, 0x80, 0x1b, 0x36] := by decide +kernel
/-- D9: KEXPR 1 on the key of V1, and D10: KEXPR 10 on round key 9. -/
theorem test_kexpr_one :
    after (exec (.kexpr 1)
      { running .enc 3 with RC := #v[0x01, 0x02, 0x04, 0x08, 0x10, 0x20, 0x40, 0x80, 0x1b, 0x36], W := seedExpanded (block keyV1) })
      (fun t => (t.W[4], t.W[5], t.W[6], t.W[7])) =
    some (word 0xd6aa74fd, word 0xd2af72fa, word 0xdaa678f1, word 0xd6ab76fe) := by decide +kernel
theorem test_kexpr_ten :
    after (exec (.kexpr 10)
      { running .enc 12 with
        RC := #v[0x01, 0x02, 0x04, 0x08, 0x10, 0x20, 0x40, 0x80, 0x1b, 0x36]
        W := ((((running .enc 12).W.set 36 (word 0x549932d1)).set 37 (word 0xf0855768)).set 38 (word 0x1093ed9c)).set 39
          (word 0xbe2c974e) })
      (fun t => (t.W[40], t.W[41], t.W[42], t.W[43])) =
    some (word 0x13111d7f, word 0xe3944a17, word 0xf307a78b, word 0x4d2b30c5) := by decide +kernel
/-- D16: a chunk of three bytes, and the second block of a message of 17. -/
theorem test_pack_short : after (exec .pack (loaded [] (bytes 3 0x616263))) (fun t => unpackMat t.S) =
    some (block 0x61626300000000000000000000000000) := by decide +kernel
theorem test_pack_second : after (exec .pack { loaded [] (bytes 17 0x4142434445464748494a4b4c4d4e4f5051) with blk := 1 })
    (fun t => unpackMat t.S) = some (block 0x51000000000000000000000000000000) := by decide +kernel
/-- D16, R158: 16 bytes at 16 * BLK. -/
theorem test_unpack : after (exec .unpack { withS 0x69c4e0d86a7b0430d8cdb78070b4c55a with blk := 2 })
    (fun t => (collect (t.byteAt .dout) 32 16, t.byteAt .dout 31, t.byteAt .dout 48)) =
    some (some (bytes 16 0x69c4e0d86a7b0430d8cdb78070b4c55a), none, none) := by decide +kernel
/-- D15: ADDROUNDKEY 0 with the key of V1. -/
theorem test_addroundkey : after (exec (.addroundkey 0)
    { withS 0x00112233445566778899aabbccddeeff with W := seedExpanded (block keyV1) }) (fun t => unpackMat t.S) =
    some (block 0x00102030405060708090a0b0c0d0e0f0) := by decide +kernel
/-- R150: a round key's word is a column; round key 10 is words 40 to 43. -/
theorem test_addroundkey_last : after (exec (.addroundkey 10)
    { withS 0 with W := (running .enc 0).W.set 41 (word 0x01020304) }) (fun t => unpackMat t.S) =
    some (block 0x00000000010203040000000000000000) := by decide +kernel
/-- D3. -/
theorem test_subbytes : after (exec .subbytes (withS keyV1)) (fun t => unpackMat t.S) =
    some (block 0x637c777bf26b6fc53001672bfed7ab76) := by decide +kernel
theorem test_invsubbytes : after (exec .invsubbytes (withS keyV1)) (fun t => unpackMat t.S) =
    some (block 0x52096ad53036a538bf40a39e81f3d7fb) := by decide +kernel
/-- D4. -/
theorem test_shiftrows : after (exec .shiftrows (withS keyV1)) (fun t => unpackMat t.S) =
    some (block 0x00050a0f04090e03080d02070c01060b) := by decide +kernel
theorem test_invshiftrows : after (exec .invshiftrows (withS keyV1)) (fun t => unpackMat t.S) =
    some (block 0x000d0a0704010e0b0805020f0c090603) := by decide +kernel
/-- D5: four of its columns. -/
theorem test_mixcolumns : after (exec .mixcolumns (withS 0xdb135345f20a225cd4d4d4d52d26314c)) (fun t => unpackMat t.S) =
    some (block 0x8e4da1bc9fdc589dd5d5d7d64d7ebdf8) := by decide +kernel
theorem test_invmixcolumns : after (exec .invmixcolumns (withS 0x8e4da1bc9fdc589dd5d5d7d64d7ebdf8))
    (fun t => unpackMat t.S) = some (block 0xdb135345f20a225cd4d4d4d52d26314c) := by decide +kernel
/-- D28: the second pass begins, and the end of a command of one block. -/
theorem test_blktest_on : after (exec .blktest { running .enc 13 with blk := 1, nblk := 2 })
    (fun t => (t.upc, t.phase, t.olen)) = some (14, .busy, 0) := by decide +kernel
theorem test_blktest_end : after (exec .blktest { running .enc 13 with blk := 1, nblk := 1 })
    (fun t => (t.status, t.olen, t.held.W[0], t.held.keylen)) = some (0x02, 16, false, true) := by decide +kernel
theorem test_nextblk : after (exec .nextblk { running .enc 56 with blk := 1 }) (fun t => (t.upc, t.blk)) = some (13, 2) := by
  decide +kernel
/-- D26: a DECRYPT of 20 bytes with a key of 16 and of 17 bytes. -/
theorem test_chkargs_length : after (exec .chkargs { running .dec 0 with keylen := 16, dlen := 20 })
    (fun t => (t.status, t.olen)) = some (0x0F, 0) := by decide +kernel
theorem test_chkargs_priority : after (exec .chkargs { running .dec 0 with keylen := 17, dlen := 20 })
    (fun t => (t.status, t.olen)) = some (0x07, 0) := by decide +kernel
/-- R173: DECRYPT after a fault. -/
theorem test_encrypt : after (exec .encrypt State.reset) (fun t => (t.status, t.cmd, t.prog, t.upc)) =
    some (0x01, 0x01, .enc, 0) := by decide +kernel
theorem test_decrypt : after (exec .decrypt { State.reset with phase := .fault, err := some .keyTooLarge })
    (fun t => (t.status, t.cmd, t.prog, t.upc)) = some (0x01, 0x02, .dec, 0) := by decide +kernel
/-- D26: CMD = 0xFF. -/
theorem test_illegal_command : after (step { State.reset with sched := [.host (.writeCr 0 0xFF)] })
    (fun t => (t.status, t.cmd)) = some (0x13, 0xFF) := by decide +kernel
/-- A placed word is the one the next step runs. -/
theorem test_fetch_word : after (step (State.reset.withFetchWord 8 0xF0)) (fun t => (t.upc, t.nblk)) = some (1, 0) ∧
    after (step (State.reset.withFetchWord 8 0x02)) (fun t => t.status) = some 0x01 := by decide +kernel

/-! ### Witnesses: a state and operands that meet the hypotheses of each statement, clause by clause -/

/-- The next event. -/
def withEvent (e : Event) (s : State) : State := { s with sched := [e] }

/-- The first word of ENC_PROG replaced. -/
def withFirstWord (w : Byte) : State := { running .enc 0 with encProg := (running .enc 0).encProg.set 0 w }

/-- DIN and DOUT of 16 bytes. -/
def small (s : State) : State := { s with params := { size := .bounded 16 8, tracePort := true } }

theorem witness_DecodeOfEncode : ∀ i ∈ ([.kexpr 1, .kexpr 10, .addroundkey 0, .addroundkey 10, .chkargs, .encrypt] : List Instr),
    i.wf = true ∧ (i.format = .microOp ∨ i.format = .hostCommand) := by decide
theorem witness_DecodedWordsAreEncodings : decodeMicro 0x3A = .ok (.kexpr 10) ∧ decodeCommand 0x02 = .ok .decrypt := by
  decide
theorem witness_IllegalMicroWords : (withFirstWord 0x30).phase = .busy ∧ CoreNext (withFirstWord 0x30) [] ∧
    fetchWord (withFirstWord 0x30) = some 0x30 ∧ decodeMicro 0x30 = .error (.illegalMicroOp 0x30) :=
  ⟨by decide, .inl ⟨rfl, rfl⟩, by decide, by decide⟩
theorem witness_IllegalCommandCodes : ∃ s : State, s.phase ≠ .busy ∧
    s.sched = .host (.writeCr 0 (0x03 : Byte).toNat) :: [] ∧ (0x03 : Byte) ≠ 0x01 ∧ (0x03 : Byte) ≠ 0x02 :=
  ⟨withEvent (.host (.writeCr 0 3)) State.reset, by decide⟩
theorem witness_GfmulPerConstant : legalConstant 0 = true ∧ legalConstant 14 = true := by decide
theorem witness_UnsupportedConstantFails : (4 : BitVec 4).toNat ∈ [4, 5, 6, 7, 8, 10, 12, 15] ∧
    (15 : BitVec 4).toNat ∈ [4, 5, 6, 7, 8, 10, 12, 15] ∧
    legalConstant ((matrixRows 0x2311 0x1231 0x1123 0x3114)[3])[3] = false := by decide
theorem witness_SboxesAreInverse : (0x00 : Byte) = 0x00 ∧ (0x53 : Byte) ≠ 0x00 ∧ fieldProduct 0x53 0xCA = 0x01 := by decide
theorem witness_GfmulLaws : legalConstant 1 = true ∧ (1 : BitVec 4) ≠ 0 ∧ legalConstant 0 = true := by decide
theorem witness_PackUnpackInverse : ([] : List Byte).length ≤ 16 ∧ (bytes 16 keyV1).length ≤ 16 := by decide
theorem witness_KeyloadLoadsKey :
    ((loaded (bytes 16 keyV1) []).keylen.toNat ≤ 16 ∧
      ∀ a, a < (loaded (bytes 16 keyV1) []).keylen.toNat → ((loaded (bytes 16 keyV1) []).byteAt .keybuf a).isSome = true) ∧
    (loaded [] []).keylen.toNat ≤ 16 ∧
      ∀ a, a < (loaded [] []).keylen.toNat → ((loaded [] []).byteAt .keybuf a).isSome = true := by
  decide +kernel
theorem witness_PackLoadsBlock :
    (16 * (loaded [] (bytes 1 0x41)).blk < (loaded [] (bytes 1 0x41)).dlen ∧
      (loaded [] (bytes 1 0x41)).params.size.admits (loaded [] (bytes 1 0x41)).dlen = true ∧
      ∀ a, 16 * 0 ≤ a → a < min (16 * 0 + 16) 1 → ((loaded [] (bytes 1 0x41)).byteAt .din a).isSome = true) ∧
    16 * (small (loaded [] (bytes 16 keyV1))).blk < (small (loaded [] (bytes 16 keyV1))).dlen ∧
      (small (loaded [] (bytes 16 keyV1))).params.size.admits (small (loaded [] (bytes 16 keyV1))).dlen = true ∧
      ∀ a, 16 * 0 ≤ a → a < min (16 * 0 + 16) 16 → ((small (loaded [] (bytes 16 keyV1))).byteAt .din a).isSome = true := by
  have one : ∀ a, a < 1 → ((loaded [] (bytes 1 0x41)).byteAt .din a).isSome = true := by decide +kernel
  have all : ∀ a, a < 16 → ((small (loaded [] (bytes 16 keyV1))).byteAt .din a).isSome = true := by decide +kernel
  exact ⟨⟨by decide, by decide, fun a _ h => one a h⟩, by decide, by decide, fun a _ h => all a h⟩
theorem witness_UnpackStoresBlock : (small (running .enc 55)).inSpace .dout (blockBase (small (running .enc 55))) 16 = true := by
  decide
theorem witness_ChkargsChecksArguments :
    (loaded (bytes 16 0) []).keylen.toNat ≤ 16 ∧
    (({ loaded [] (bytes 32 0) with prog := .dec } : State).prog = .dec → (loaded [] (bytes 32 0)).dlen % 16 = 0) ∧
    16 < (loaded (bytes 17 0) []).keylen.toNat ∧ (loaded [] (bytes 15 0)).dlen % 16 ≠ 0 := by decide
theorem witness_BlktestGoesOnOrEnds : ({ running .enc 13 with nblk := 1 } : State).blk < ({ running .enc 13 with nblk := 1 } : State).nblk ∧
    ¬ (running .enc 13).blk < (running .enc 13).nblk := by decide
theorem witness_CommandStarts : State.reset.phase ≠ .busy := by decide
theorem witness_OutsideTheRules :
    ((0 : BitVec 4).toNat = 0 ∨ 10 < (0 : BitVec 4).toNat) ∧ ((11 : BitVec 4).toNat = 0 ∨ 10 < (11 : BitVec 4).toNat) ∧
    16 < (loaded (bytes 17 0) []).keylen.toNat ∧
    (∃ s : State, s.inSpace .din (blockBase s) (chunkLength s) = false ∧ s.inSpace .dout (blockBase s) 16 = false) ∧
    16 < (bytes 17 0).length ∧
    (∃ s : State, s.keylen.toNat ≤ 16 ∧ 15 < s.keylen.toNat ∧ s.byteAt .keybuf 15 = none) ∧
    (∃ s : State, s.params.size.admits s.dlen = true ∧ 16 * s.blk ≤ 16 ∧ 16 < min (16 * s.blk + 16) s.dlen ∧ s.byteAt .din 16 = none) ∧
    ∃ s : State, s.dlen ≤ 16 * s.blk ∧ s.inSpace .din (16 * s.blk) 0 = true :=
  ⟨by decide, by decide, by decide, ⟨{ small (loaded [] []) with blk := 1, dlen := 17 }, by decide⟩, by decide,
    ⟨{ State.reset with keylen := 16 }, by decide⟩, ⟨{ State.reset with blk := 1, dlen := 17 }, by decide⟩,
    ⟨{ small (loaded [] []) with blk := 1, dlen := 16 }, by decide⟩⟩
theorem witness_StepRunsFetched : (running .dec 56).phase = .busy ∧ CoreNext (running .dec 56) [] ∧
    CoreNext (withEvent .core (running .dec 56)) [] ∧
    ((running .dec 56).prog = .enc → (running .dec 56).encProg[56]? = some 0xE0) ∧
    ((running .dec 56).prog = .dec → (running .dec 56).decProg[56]? = some 0xE0) ∧ decodeMicro 0xE0 = .ok .nextblk :=
  ⟨by decide, .inl ⟨rfl, rfl⟩, .inr rfl, by decide, by decide, by decide⟩
theorem witness_CoreTurnWithoutMicroOp : CoreNext (running .enc 57) [] ∧ (running .enc 57).phase = .busy ∧
    56 < (running .enc 57).upc.toNat ∧ CoreNext (withEvent .core State.reset) [] ∧ State.reset.phase ≠ .busy :=
  ⟨.inl ⟨rfl, rfl⟩, by decide, by decide, .inr rfl, by decide⟩
theorem witness_StepRunsCommand : (withEvent (.host (.writeCr 0 2)) State.reset).sched =
    .host (.writeCr 0 (0x02 : Byte).toNat) :: [] ∧ decodeCommand 0x02 = .ok .decrypt := by decide
theorem witness_HostWhileBusy : (running .enc 0).phase = .busy ∧ (HostMove.readCr 0 ≠ HostMove.readCr 1) ∧
    (withEvent (.host (.readCr 0)) (running .enc 0)).sched = .host (.readCr 0) :: [] ∧
    (withEvent (.host (.readCr 1)) (running .enc 0)).sched = .host (.readCr 1) :: [] := by decide
theorem witness_HostReadsControl : State.reset.phase ≠ .busy ∧ 6 ≤ 6 ∧
    (∀ cr, cr ≤ 6 → (withEvent (.host (.readCr cr)) State.reset).sched = .host (.readCr cr) :: []) ∧
    ((0, 0) : Nat × Nat) ∈ [(0, State.reset.cmd.toNat), (1, State.reset.status.toNat), (2, State.reset.keylen.toNat),
      (3, State.reset.dlen), (4, State.reset.olen), (5, State.reset.ctrl.toNat)] ∧
    ((5, 0) : Nat × Nat) ∈ [(0, State.reset.cmd.toNat), (1, State.reset.status.toNat), (2, State.reset.keylen.toNat),
      (3, State.reset.dlen), (4, State.reset.olen), (5, State.reset.ctrl.toNat)] := by
  refine ⟨by decide, by decide, fun cr _ => rfl, by decide, by decide⟩
theorem witness_HostWritesControl : (small State.reset).phase ≠ .busy ∧
    (∀ cr v, (withEvent (.host (.writeCr cr v)) (small State.reset)).sched = .host (.writeCr cr v) :: []) ∧
    (small State.reset).params.size.admits 16 = true ∧ (small State.reset).params.size.admits 17 = false ∧ 255 < 256 ∧ 6 ≤ 6 := by
  refine ⟨by decide, fun cr v => rfl, by decide, by decide, by decide, by decide⟩
theorem witness_HostWritesBuffers : State.reset.phase ≠ .busy ∧
    (∀ sp a b, (withEvent (.host (.writeSpace sp a b)) (small State.reset)).sched = .host (.writeSpace sp a b) :: []) ∧
    (small State.reset).inSpace .keybuf 15 1 = true ∧ (small State.reset).inSpace .keybuf 16 1 = false ∧
    (small State.reset).inSpace .din 15 1 = true ∧ (small State.reset).inSpace .din 16 1 = false ∧
    Space.dout ≠ .keybuf ∧ Space.dout ≠ .din := by
  refine ⟨by decide, fun sp a b => rfl, by decide, by decide, by decide, by decide, by decide, by decide⟩

/-- A command of one block that has ended, its result in DOUT. -/
def ended : State := { loaded [] (bytes 16 keyV1) with phase := .done, olen := 16, dout := buffer (bytes 16 keyV1) }

theorem witness_HostReadsResult : ended.phase ≠ .busy ∧ ended.phase = .done ∧ 15 < ended.olen ∧
    ended.inSpace .dout 15 1 = true ∧ ended.byteAt .dout 15 = some 0x0f ∧ ended.olen ≤ 16 ∧ State.reset.phase ≠ .done ∧
    (withEvent (.host (.readSpace .dout 15)) ended).sched = .host (.readSpace .dout 15) :: [] ∧ Space.keybuf ≠ .dout ∧
    (withEvent (.host (.readSpace .keybuf 0)) ended).sched = .host (.readSpace .keybuf 0) :: [] := by decide +kernel
theorem witness_StatusByte : State.reset.phase = .idle ∧ State.reset.err = none ∧
    (∃ s : State, s.phase = .fault ∧ s.err = some .illegalMicroOp) :=
  ⟨rfl, rfl, { State.reset with phase := .fault, err := some .illegalMicroOp }, rfl, rfl⟩
theorem witness_ResetAbandonsCommand : (withEvent .reset (running .enc 20)).sched = .reset :: [] := by decide

/-- A running command of one block, about to run BLKTEST. -/
def looping : State := { running .enc 13 with keylen := 16, dlen := 16, nblk := 1 }

theorem looping_inv : looping.Inv where
  keybuf_wf := List.Pairwise.nil
  din_wf := List.Pairwise.nil
  dout_wf := List.Pairwise.nil
  keybuf_in := by simp [looping, running, State.reset]
  din_in := by simp [looping, running, State.reset]
  dout_in := by simp [looping, running, State.reset]
  err_iff := by decide
  olen_zero := by decide
  olen_mult := by decide
  dlen_fits := by decide
  trace_en := by decide
  internals := fun h => absurd rfl h
  control := by decide

theorem looping_command : CommandInv looping where
  inv := looping_inv
  size_wf := by decide
  enc := rfl
  dec := rfl
  olen_fits := by decide
  result := by decide
  run := fun _ => {
    upc_le := by decide
    started := fun _ => ⟨rfl, rfl, by decide, by decide, by decide, by decide, fun a h => absurd h (Nat.not_lt_zero a)⟩
    key := by decide
    rc := by decide
    words := by decide
    block := by decide
    state := by decide
    stored := by decide }

/-- A running command with a key of 17 bytes, about to run CHKARGS. -/
def tooLarge : State := { running .enc 0 with keylen := 17 }

theorem tooLarge_command : CommandInv tooLarge where
  inv := {
    keybuf_wf := List.Pairwise.nil
    din_wf := List.Pairwise.nil
    dout_wf := List.Pairwise.nil
    keybuf_in := by simp [tooLarge, running, State.reset]
    din_in := by simp [tooLarge, running, State.reset]
    dout_in := by simp [tooLarge, running, State.reset]
    err_iff := by decide
    olen_zero := by decide
    olen_mult := by decide
    dlen_fits := by decide
    trace_en := by decide
    internals := fun h => absurd rfl h
    control := by decide }
  size_wf := by decide
  enc := rfl
  dec := rfl
  olen_fits := by decide
  result := by decide
  run := fun _ => {
    upc_le := by decide
    started := by decide
    key := by decide
    rc := by decide
    words := by decide
    block := by decide
    state := by decide
    stored := by decide }

theorem witness_StepKeepsInv : looping.Inv ∧ ∃ t, step looping = .next t := ⟨looping_inv, _, rfl⟩
theorem witness_StepKeepsCommandInv : CommandInv looping ∧ ∃ t, step looping = .next t := ⟨looping_command, _, rfl⟩
theorem witness_CommandReadsOnlyHeld : CommandInv looping ∧ looping.held.keylen = true ∧ looping.held.dlen = true ∧
    looping.phase = .busy := ⟨looping_command, by decide, by decide, by decide⟩
theorem witness_OnlyChkargsFaults : CommandInv tooLarge ∧ tooLarge.phase = .busy ∧ coreMoves tooLarge = true ∧
    step tooLarge = .next (raise .keyTooLarge tooLarge) ∧ (raise .keyTooLarge tooLarge).phase = .fault :=
  ⟨tooLarge_command, by decide, by decide, by rfl, by simp⟩
theorem witness_CoreKeepsInputs : coreMoves looping = true ∧ (∃ t, step looping = .next t) ∧
    coreMoves (withEvent .core looping) = true ∧ ∃ t, step (withEvent .core looping) = .next t :=
  ⟨by decide, ⟨_, rfl⟩, by decide, _, rfl⟩
theorem witness_RomsNeverChange : (∃ t, step looping = .next t) ∧ Space.fsbox ∈ [Space.fsbox, .isbox, .encProg, .decProg] ∧
    Space.decProg ∈ [Space.fsbox, .isbox, .encProg, .decProg] := ⟨⟨_, rfl⟩, by decide, by decide⟩
theorem witness_StatusTransitions : ∃ t, step looping = .next t := ⟨_, rfl⟩
theorem witness_TraceHasNoEffect : (∃ t, exec .rcongen looping = .next t) ∧
    exec .keyload { looping with keylen := 1 } = .fault .unwrittenRead ∧ exec (.kexpr 0) looping = .refused .operandOutOfRange :=
  ⟨⟨_, rfl⟩, by rfl, by rfl⟩
theorem witness_TraceEmitsStateWrites : (∃ t, exec .subbytes { looping with traceEn := true } = .next t) ∧
    looping.params.tracePort = true ∧ ({ looping with traceEn := true } : State).traceEn = true ∧ writesState .subbytes = true ∧
    looping.traceEn = false ∧ writesState .unpack = false := ⟨⟨_, rfl⟩, by decide, by decide, by decide, by decide, by decide⟩
theorem witness_KeyScheduleComputesExpandedKey : (loaded (bytes 16 keyV1) []).keylen.toNat ≤ 16 ∧
    collect ((loaded (bytes 16 keyV1) []).byteAt .keybuf) 0 (loaded (bytes 16 keyV1) []).keylen.toNat = some (bytes 16 keyV1) := by
  decide +kernel

/-- A key and a message of `n` bytes in place, a command may start. -/
theorem ready (m n : Nat) (h : (m, n) ∈ [(0, 0), (16, 1), (16, 16), (17, 16)]) :
    CommandReady (loaded (bytes m 7) (bytes n 9)) (bytes m 7) (bytes n 9) := by
  simp only [List.mem_cons, Prod.mk.injEq, List.not_mem_nil, or_false] at h
  rcases h with ⟨rfl, rfl⟩ | ⟨rfl, rfl⟩ | ⟨rfl, rfl⟩ | ⟨rfl, rfl⟩ <;>
    exact ⟨by decide, rfl, rfl, rfl, rfl, rfl, by decide, by decide +kernel, by decide +kernel⟩

theorem witness_EncryptAgreesWithTransaction : CommandReady (loaded (bytes 16 7) (bytes 1 9)) (bytes 16 7) (bytes 1 9) ∧
    CommandReady (loaded (bytes 17 7) (bytes 16 9)) (bytes 17 7) (bytes 16 9) := ⟨ready 16 1 (by simp), ready 17 16 (by simp)⟩
theorem witness_DecryptAgreesWithTransaction : CommandReady (loaded (bytes 16 7) (bytes 1 9)) (bytes 16 7) (bytes 1 9) ∧
    CommandReady (loaded (bytes 16 7) (bytes 16 9)) (bytes 16 7) (bytes 16 9) := ⟨ready 16 1 (by simp), ready 16 16 (by simp)⟩
theorem witness_CommandLength : CommandReady (loaded (bytes 16 7) (bytes 16 9)) (bytes 16 7) (bytes 16 9) ∧
    (loaded (bytes 16 7) (bytes 16 9)).keylen.toNat ≤ 16 ∧ (loaded (bytes 16 7) (bytes 16 9)).dlen % 16 = 0 ∧
    (∃ t, exec .encrypt (loaded (bytes 16 7) (bytes 16 9)) = .next t) ∧
    ∃ t, exec .decrypt (loaded (bytes 16 7) (bytes 16 9)) = .next t :=
  ⟨ready 16 16 (by simp), by decide, by decide, ⟨_, rfl⟩, _, rfl⟩
theorem witness_MessagesRoundTrip : (bytes 16 7).length ≤ 16 ∧ (bytes 32 9).length % 16 = 0 := by decide

end Sys2Proof.Tests
end

section
/-! The known-answer vector of spec 95_test_vectors.md (V1, V2), along the round keys and states that the spec derives
for it (D10, D17). -/

namespace Sys2Proof.Machine

/-! ### Messages of one block -/

theorem zext16_toList (b : Block) : zext16 b.toList = b := by
  ext i hi
  simp [hi]

theorem messageBlock_toList (b : Block) : messageBlock b.toList 0 = b := by
  have h : b.toList.take 16 = b.toList := List.take_of_length_le (by simp)
  simp [messageBlock, h, zext16_toList]

/-- R165: a message of one block has one block's result. -/
theorem eachBlock_toList {f : Block → Except CoreFault Block} {b c : Block} (h : f b = .ok c) :
    eachBlock f b.toList = .ok c.toList := by
  have count : List.range (blockCount b.toList.length) = [0] := by rw [Vector.length_toList]; rfl
  rw [eachBlock, count, List.mapM_cons, messageBlock_toList, h]
  simp [bind, Except.bind, pure, Except.pure]

theorem encryptMessage_toList {k b c : Block} (h : encBlock b (expandKey k) = .ok c) :
    encryptMessage b.toList k.toList = .ok c.toList := by
  have short : ¬ 16 < k.toList.length := by simp
  rw [encryptMessage, if_neg short, zext16_toList]
  exact eachBlock_toList h

theorem decryptMessage_toList {k b c : Block} (h : decBlock b (expandKey k) = .ok c) :
    decryptMessage b.toList k.toList = .ok c.toList := by
  have short : ¬ 16 < k.toList.length := by simp
  have whole : ¬ b.toList.length % 16 ≠ 0 := by simp
  rw [decryptMessage, if_neg short, if_neg whole, zext16_toList]
  exact eachBlock_toList h

/-! ### The vector -/

/-- A block written as one numeral, offset 0 first, as the spec prints its vectors. -/
def blockOfBits (x : BitVec 128) : Block := Vector.ofFn fun i => x.extractLsb' (120 - 8 * i.val) 8

def vectorKey : Block := blockOfBits 0x000102030405060708090a0b0c0d0e0f
def vectorPlaintext : Block := blockOfBits 0x00112233445566778899aabbccddeeff
def vectorCiphertext : Block := blockOfBits 0x69c4e0d86a7b0430d8cdb78070b4c55a

/-- D10: the eleven round keys of the vector. -/
def vectorRoundKeys : Vector Block 11 := .map blockOfBits
  #v[0x000102030405060708090a0b0c0d0e0f, 0xd6aa74fdd2af72fadaa678f1d6ab76fe,
    0xb692cf0b643dbdf1be9bc5006830b3fe, 0xb6ff744ed2c2c9bf6c590cbf0469bf41,
    0x47f7f7bc95353e03f96c32bcfd058dfd, 0x3caaa3e8a99f9deb50f3af57adf622aa,
    0x5e390f7df7a69296a7553dc10aa31f6b, 0x14f9701ae35fe28c440adf4d4ea9c026,
    0x47438735a41c65b9e016baf4aebf7ad2, 0x549932d1f08557681093ed9cbe2c974e,
    0x13111d7fe3944a17f307a78b4d2b30c5]

/-- D10: the words of the vector's round keys. -/
def vectorExpanded : Expanded :=
  Vector.ofFn fun i => keyWord vectorRoundKeys[i.val / 4] ⟨i.val % 4, by omega⟩

/-- D17: the state of the vector after ADDROUNDKEY `r`, for `r` from 0 to 9. -/
def vectorState (r : Nat) : Mat := packBlock <| blockOfBits <|
  [0x00102030405060708090a0b0c0d0e0f0, 0x89d810e8855ace682d1843d8cb128fe4,
    0x4915598f55e5d7a0daca94fa1f0a63f7, 0xfa636a2825b339c940668a3157244d17,
    0x247240236966b3fa6ed2753288425b6c, 0xc81677bc9b7ac93b25027992b0261996,
    0xc62fe109f75eedc3cc79395d84f9cf5d, 0xd1876c0f79c4300ab45594add66ff41f,
    0xfde3bad205e5d0d73547964ef1fe37f1, 0xbd6e7c3df2b5779e0b61216e8b10b689].getD r 0

theorem expandKey_vector : expandKey vectorKey = vectorExpanded := by decide +kernel

/-- Rounds that lead from each state of a sequence to the next lead, one after the other, from its first to its last. -/
theorem foldlM_of_rounds {f : Mat → Fin 11 → Except CoreFault Mat} (rounds : List (Fin 11)) (state : Nat → Mat)
    (h : ∀ i : Fin rounds.length, f (state i) rounds[i] = .ok (state (i + 1))) :
    rounds.foldlM f (state 0) = .ok (state rounds.length) := by
  induction rounds generalizing state with
  | nil => rfl
  | cons r rs ih =>
    have head : f (state 0) r = .ok (state 1) := h 0
    have tail := ih (fun i => state (i + 1)) fun i => h i.succ
    rw [List.foldlM_cons, head]
    exact tail

/-- D17: each round of EncBlock leads from one state to the next. -/
theorem encRounds_vector :
    [1, 2, 3, 4, 5, 6, 7, 8, 9].foldlM (encRound vectorExpanded) (vectorState 0) = .ok (vectorState 9) :=
  foldlM_of_rounds _ vectorState (by decide +kernel)

/-- R184: the rounds of DecBlock lead through the states of EncBlock in reverse order. -/
theorem decRounds_vector :
    [9, 8, 7, 6, 5, 4, 3, 2, 1].foldlM (decRound vectorExpanded) (vectorState 9) = .ok (vectorState 0) :=
  foldlM_of_rounds _ (fun i => vectorState (9 - i)) (by decide +kernel)

theorem encBlock_vector : encBlock vectorPlaintext vectorExpanded = .ok vectorCiphertext := by
  have first : addRoundKey (roundKey vectorExpanded 0) (packBlock vectorPlaintext) = vectorState 0 := by decide +kernel
  have last : unpackMat (addRoundKey (roundKey vectorExpanded 10) (shiftRows (subBytes (vectorState 9)))) =
      vectorCiphertext := by decide +kernel
  rw [encBlock, first, encRounds_vector]
  exact congrArg Except.ok last

theorem decBlock_vector : decBlock vectorCiphertext vectorExpanded = .ok vectorPlaintext := by
  have first : invSubBytes (invShiftRows (addRoundKey (roundKey vectorExpanded 10) (packBlock vectorCiphertext))) =
      vectorState 9 := by decide +kernel
  have last : unpackMat (addRoundKey (roundKey vectorExpanded 0) (vectorState 0)) = vectorPlaintext := by decide +kernel
  rw [decBlock, first, decRounds_vector]
  exact congrArg Except.ok last

/-- Settles O60: the vector's one block passes through the states of D17, down for ENCRYPT and back up for DECRYPT. -/
theorem knownAnswer : Obligations.KnownAnswer := by
  have key : (List.range 16).map (BitVec.ofNat 8) = vectorKey.toList := by decide +kernel
  have plaintext : (List.range 16).map (fun n => BitVec.ofNat 8 (0x11 * n)) = vectorPlaintext.toList := by
    decide +kernel
  have ciphertext :
      [0x69, 0xc4, 0xe0, 0xd8, 0x6a, 0x7b, 0x04, 0x30] ++ [0xd8, 0xcd, 0xb7, 0x80, 0x70, 0xb4, 0xc5, 0x5a] =
        vectorCiphertext.toList := by decide +kernel
  simp only [Obligations.KnownAnswer, key, plaintext, ciphertext]
  exact ⟨encryptMessage_toList (expandKey_vector ▸ encBlock_vector),
    decryptMessage_toList (expandKey_vector ▸ decBlock_vector)⟩

end Sys2Proof.Machine
end

section
/-! Every step keeps the machine invariant: a lemma for each operation on the state, and the two inversions put them
together. -/

namespace Sys2Proof.Machine

/-- R7: DMAX admits no bytes, whatever it is. -/
@[simp] theorem admits_zero (z : Config.Sizing) : z.admits 0 = true := by
  cases z <;> simp [Config.Sizing.admits]

/-- That the internal registers hold no value (R47) says nothing of KEYLEN and DLEN. -/
theorem InternalsDropped.of_held_eq {s t : State} (h : InternalsDropped s s)
    (ht : t.held = { s.held with keylen := t.held.keylen, dlen := t.held.dlen }) : InternalsDropped t t :=
  ht.trans (by rw [h])

/-- While a command runs there is no error. -/
theorem State.Inv.err_none {s : State} (h : s.Inv) (hp : s.phase = .busy) : s.err = none := by
  simpa [hp] using mt h.err_iff.1

/-! ### What a micro-op never changes -/

/-- What every micro-op leaves as it is, also the one that ends the command. -/
structure KeepsConfig (s t : State) : Prop where
  keybuf : t.keybuf = s.keybuf
  din : t.din = s.din
  dlen : t.dlen = s.dlen
  traceEn : t.traceEn = s.traceEn
  params : t.params = s.params
  enc : t.encProg = s.encProg
  dec : t.decProg = s.decProg

theorem raise_keepsConfig (f : CoreFault) (s : State) : KeepsConfig s (raise f s) := by constructor <;> simp

theorem finish_keepsConfig (s : State) : KeepsConfig s (finish s) := by constructor <;> simp

/-- With these kept, the invariant rests on DOUT, STATUS, OLEN and which registers hold a value. -/
theorem State.Inv.keepsConfig {s t : State} (h : s.Inv) (k : KeepsConfig s t)
    (hwf : Memory.wf t.dout) (hin : ∀ c ∈ t.dout, s.inSpace .dout c.1 1 = true)
    (err_iff : t.err.isSome = true ↔ t.phase = .fault) (olen_zero : t.phase ≠ .done → t.olen = 0)
    (olen_mult : t.olen % 16 = 0) (internals : t.phase ≠ .busy → InternalsDropped t t)
    (control : t.phase = .busy → t.held.prog = true ∧ t.held.upc = true) : t.Inv where
  keybuf_wf := k.keybuf ▸ h.keybuf_wf
  din_wf := k.din ▸ h.din_wf
  dout_wf := hwf
  keybuf_in c hc := (inSpace_congr k.params ..).trans (h.keybuf_in c (k.keybuf ▸ hc))
  din_in c hc := (inSpace_congr k.params ..).trans (h.din_in c (k.din ▸ hc))
  dout_in c hc := (inSpace_congr k.params ..).trans (hin c hc)
  err_iff := err_iff
  olen_zero := olen_zero
  olen_mult := olen_mult
  dlen_fits := by rw [k.params, k.dlen]; exact h.dlen_fits
  trace_en := by rw [k.traceEn, k.params]; exact h.trace_en
  internals := internals
  control := control

/-! ### The operations on the state -/

theorem State.Inv.raise {s : State} (h : s.Inv) (f : CoreFault) : (raise f s).Inv :=
  h.keepsConfig (raise_keepsConfig f s) (by simpa using h.dout_wf) (by simpa using h.dout_in) (by simp) (by simp)
    (by simp) (by simp [InternalsDropped]) (by simp)

theorem State.Inv.finish {s : State} (h : s.Inv) (hp : s.phase = .busy) : (finish s).Inv :=
  h.keepsConfig (finish_keepsConfig s) (by simpa using h.dout_wf) (by simpa using h.dout_in)
    (by simp [h.err_none hp]) (by simp) (by simp) (by simp [InternalsDropped]) (by simp)

theorem State.Inv.takeEvent {s : State} (h : s.Inv) : (takeEvent s).Inv := { h with }

theorem State.Inv.answer {s : State} (h : s.Inv) (n : Nat) : (answer n s).Inv := { h with }

theorem State.Inv.latchCommand {s : State} (h : s.Inv) (v : Byte) : (latchCommand v s).Inv := { h with
  olen_zero := by simp
  olen_mult := by simp }

theorem State.Inv.enter {s : State} (h : s.Inv) (hz : s.olen = 0) (p : ProgSel) : (enter p s).Inv := { h with
  err_iff := by simp
  olen_zero := by simp [hz]
  internals := by simp
  control := by simp }

theorem resetCore_inv (s : State) : (resetCore s).Inv where
  keybuf_wf := .nil
  din_wf := .nil
  dout_wf := .nil
  keybuf_in _ hc := nomatch hc
  din_in _ hc := nomatch hc
  dout_in _ hc := nomatch hc
  err_iff := by simp [Machine.resetCore, State.reset]
  olen_zero _ := rfl
  olen_mult := rfl
  dlen_fits := admits_zero _
  trace_en := by simp [Machine.resetCore, State.reset]
  internals _ := rfl
  control := by simp [Machine.resetCore, State.reset]

/-- A string of bytes written inside its space lists no byte outside it. -/
theorem inSpace_of_mem_writeAll {s : State} {sp : Space} {m : Memory} {a : Nat} {bs : List Byte}
    (hm : ∀ c ∈ m, s.inSpace sp c.1 1 = true) (ha : s.inSpace sp a bs.length = true) :
    ∀ c ∈ Memory.writeAll m a bs, s.inSpace sp c.1 1 = true := by
  intro c hc
  rcases Memory.mem_writeAll hc with ⟨lo, hi⟩ | hc
  · exact inSpace_mono ha (by omega)
  · exact hm c hc

/-! ### The micro-ops -/

/-- What a micro-op leaves when the command goes on after it. -/
structure GoesOn (s t : State) : Prop extends KeepsConfig s t where
  phase : t.phase = s.phase
  err : t.err = s.err
  olen : t.olen = s.olen
  held_prog : t.held.prog = s.held.prog
  held_upc : t.held.upc = true

/-- While a command runs, a micro-op lets it go on, or is the CHKARGS that faults or the BLKTEST that ends it. -/
theorem Effect.goesOn_or_ends {s t : State} {i : Instr} (h : Effect s i t) (hp : s.phase = .busy) :
    GoesOn s t ∨ (i = .chkargs ∧ ∃ f, argumentFault s = some f ∧ t = raise f s) ∨
      (i = .blktest ∧ ¬ s.blk < s.nblk ∧ t = finish s) := by
  cases h with
  | chkargsFault f hf => exact .inr (.inl ⟨rfl, f, hf, rfl⟩)
  | blktestEnd hb => exact .inr (.inr ⟨rfl, hb, rfl⟩)
  | encrypt hb | decrypt hb => exact absurd hp hb
  | _ => exact .inl ⟨by constructor <;> simp, by simp, by simp, by simp, by simp, by simp⟩

/-- UNPACK is the only instruction that writes DOUT, and it writes inside the space. -/
theorem Effect.dout_cases {s t : State} {i : Instr} (h : Effect s i t) :
    t.dout = s.dout ∨ s.inSpace .dout (blockBase s) 16 = true ∧
      t.dout = Memory.writeAll s.dout (blockBase s) (unpackMat s.S).toList := by
  cases h with
  | unpack hin => exact .inr ⟨hin, by simp⟩
  | _ => exact .inl (by simp)

theorem State.Inv.goesOn {s t : State} (h : s.Inv) (hp : s.phase = .busy) (g : GoesOn s t)
    (hwf : Memory.wf t.dout) (hin : ∀ c ∈ t.dout, s.inSpace .dout c.1 1 = true) : t.Inv :=
  h.keepsConfig g.toKeepsConfig hwf hin
    (err_iff := by rw [g.err, g.phase]; exact h.err_iff)
    (olen_zero := by rw [g.phase, g.olen]; exact h.olen_zero)
    (olen_mult := by rw [g.olen]; exact h.olen_mult)
    (internals := fun hb => absurd (g.phase.trans hp) hb)
    (control := fun _ => ⟨g.held_prog.trans (h.control hp).1, g.held_upc⟩)

theorem State.Inv.effect {s t : State} {i : Instr} (h : s.Inv) (hp : s.phase = .busy) (he : Effect s i t) : t.Inv := by
  rcases he.goesOn_or_ends hp with g | ⟨-, f, -, rfl⟩ | ⟨-, -, rfl⟩
  · rcases he.dout_cases with hd | ⟨hin, hd⟩
    · exact h.goesOn hp g (hd ▸ h.dout_wf) (hd ▸ h.dout_in)
    · exact h.goesOn hp g (hd ▸ Memory.writeAll_wf h.dout_wf ..)
        (hd ▸ inSpace_of_mem_writeAll h.dout_in (by simpa using hin))
  · exact h.raise f
  · exact h.finish hp

/-! ### The step -/

theorem State.Inv.stepEffect {s t : State} (h : s.Inv) (he : StepEffect s t) : t.Inv := by
  cases he with
  | idle | ignored => exact h.takeEvent
  | run _ hp i _ _ he => exact h.takeEvent.effect hp he
  | badFetch => exact h.takeEvent.raise _
  | encrypt | decrypt => exact (h.takeEvent.latchCommand _).enter rfl _
  | badCommand => exact (h.takeEvent.latchCommand _).raise _
  | read => exact h.takeEvent.answer _
  | keylen _ hp => exact { h with
      internals := fun _ => (h.internals hp).of_held_eq rfl
      control := fun hb => absurd hb hp }
  | dlen _ hp _ hv => exact { h with
      dlen_fits := hv
      internals := fun _ => (h.internals hp).of_held_eq rfl
      control := fun hb => absurd hb hp }
  | ctrl => exact { h with trace_en := by simp [traceEnable] }
  | keybuf _ _ a b ha => exact { h with
      keybuf_wf := Memory.write_wf h.keybuf_wf a b
      keybuf_in := inSpace_of_mem_writeAll (bs := [b]) h.keybuf_in ha }
  | din _ _ a b ha => exact { h with
      din_wf := Memory.write_wf h.din_wf a b
      din_in := inSpace_of_mem_writeAll (bs := [b]) h.din_in ha }
  | reset => exact resetCore_inv _

/-- Settles O43: by the inversion of the step, each operation keeping the invariant. -/
theorem stepKeepsInv : Obligations.StepKeepsInv := by
  intro s t h hs
  exact h.stepEffect (step_effect hs)

end Sys2Proof.Machine
end

section
/-! Where the constant micro-programs hold each instruction, and that every step keeps the invariant of a running command:
a micro-op makes true what the next index needs. -/

namespace Sys2Proof.Machine

/-! ### The indices of the micro-programs (R175, R176) -/

/-- Whether a micro-program may hold an instruction at an index: each has its place, with a legal operand. -/
def placedAt : Instr → Nat → Bool
  | .chkargs, u => u = 0
  | .keyload, u => u = 1
  | .rcongen, u => u = 2
  | .kexpr j, u => u = j.toNat + 2 ∧ 1 ≤ j.toNat ∧ j.toNat ≤ 10
  | .blktest, u => u = 13
  | .pack, u => u = 14
  | .addroundkey r, u => 15 ≤ u ∧ u ≤ 54 ∧ r.toNat ≤ 10
  | .subbytes, u | .invsubbytes, u | .shiftrows, u | .invshiftrows, u | .mixcolumns, u | .invmixcolumns, u =>
    15 ≤ u ∧ u ≤ 54
  | .unpack, u => u = 55
  | .nextblk, u => u = 56
  | .encrypt, _ | .decrypt, _ => false

theorem programOf_placedAt : ∀ u : Fin 57, (∀ i ∈ (programOf .enc)[u.val]?, placedAt i u = true) ∧
    ∀ i ∈ (programOf .dec)[u.val]?, placedAt i u = true := by decide

/-- What a running command fetches stands in its place. -/
theorem fetched_placedAt {s : State} (h : CommandInv s) (hp : s.phase = .busy) {i : Instr} (hi : fetched s = some i) :
    placedAt i s.upc.toNat = true := by
  have hu : s.upc.toNat < 57 := Nat.lt_succ_of_le (h.run hp).upc_le
  rw [fetched_rom h.enc h.dec hu] at hi
  obtain ⟨enc, dec⟩ := programOf_placedAt ⟨s.upc.toNat, hu⟩
  cases hs : s.prog with
  | enc => exact enc i (hs ▸ hi)
  | dec => exact dec i (hs ▸ hi)

/-! ### What holds at the next index -/

/-- KEYLOAD and each KEXPR give four words of W a value; no other micro-op does. -/
theorem wordsReady_succ (u : Nat) :
    wordsReady (u + 1) = if u = 1 ∨ 3 ≤ u ∧ u ≤ 12 then wordsReady u + 4 else wordsReady u := by
  unfold wordsReady
  split_ifs <;> omega

/-- Writing a string of bytes gives a value to these bytes and takes it from none. -/
theorem isSome_read_writeAll (m : Memory) (a : Nat) (bs : List Byte) (x : Nat) :
    (Memory.read (Memory.writeAll m a bs) x).isSome = true ↔
      (a ≤ x ∧ x < a + bs.length) ∨ (Memory.read m x).isSome = true := by
  by_cases hx : a ≤ x ∧ x < a + bs.length
  · obtain ⟨k, rfl⟩ := Nat.exists_eq_add_of_le hx.1
    have hk : k < bs.length := by omega
    simp [Memory.read_writeAll_inside m a bs hk, hk]
  · rw [Memory.read_writeAll_outside m a bs (by omega)]
    exact (or_iff_right hx).symm

/-- What every micro-op that goes on to the next index leaves, CHKARGS apart: the arguments, the block counters and
every value that is held, S apart. -/
structure KeepsRun (s t : State) : Prop where
  upc : t.upc = s.upc + 1
  keylen : t.keylen = s.keylen
  dlen : t.dlen = s.dlen
  prog : t.prog = s.prog
  blk : t.blk = s.blk
  nblk : t.nblk = s.nblk
  held_blk : t.held.blk = s.held.blk
  held_nblk : t.held.nblk = s.held.nblk
  held_K : s.held.K = true → t.held.K = true
  held_RC : s.held.RC = true → t.held.RC = true
  held_W : ∀ i : Fin 44, s.held.W[i] = true → t.held.W[i] = true
  dout : ∀ a, (s.byteAt .dout a).isSome = true → (t.byteAt .dout a).isSome = true

theorem advance_keepsRun (s : State) : KeepsRun s (advance s) := by
  constructor <;> simp [State.byteAt]

theorem Effect.keepsRun {s t : State} {i : Instr} (h : Effect s i t) (hi : straight i = true) : KeepsRun s t := by
  cases h with
  | keyload => constructor <;> simp +contextual [State.byteAt, seedWords_held_get]
  | kexpr => constructor <;> simp +contextual [State.byteAt, writeRoundKey_held_get]
  | unpack => constructor <;> simp +contextual [State.byteAt, isSome_read_writeAll]
  | blktestOn | blktestEnd | nextblk | chkargs | chkargsFault | encrypt | decrypt => cases hi
  | _ => constructor <;> simp [State.byteAt]

/-- A micro-op from KEYLOAD to UNPACK keeps the invariant when it makes true what its own index adds. -/
theorem RunInv.next {s t : State} (h : RunInv s) (k : KeepsRun s t) (lo : 1 ≤ s.upc.toNat) (hi : s.upc.toNat ≤ 55)
    (key : s.upc.toNat = 1 → t.held.K = true := by intros; omega)
    (rc : s.upc.toNat = 2 → t.held.RC = true := by intros; omega)
    (words : s.upc.toNat = 1 ∨ 3 ≤ s.upc.toNat ∧ s.upc.toNat ≤ 12 → ∀ i : Fin 44,
      wordsReady s.upc.toNat ≤ i.val → i.val < wordsReady s.upc.toNat + 4 → t.held.W[i] = true := by intros; omega)
    (block : s.upc.toNat = 13 → s.blk < s.nblk := by intros; omega)
    (state : 14 ≤ s.upc.toNat → s.upc.toNat ≤ 54 → t.held.S = true := by intros; omega)
    (stored : s.upc.toNat = 55 → ∀ a, 16 * s.blk ≤ a → a < 16 * s.blk + 16 → (t.byteAt .dout a).isSome = true := by
      intros; omega) :
    RunInv t := by
  have hu : t.upc.toNat = s.upc.toNat + 1 := by rw [k.upc]; exact upc_succ (by omega)
  obtain ⟨hblk, hnblk, hkey, hcount, hle, hdec, hdone⟩ := h.started lo
  exact {
    upc_le := by omega
    started := fun _ => by
      rw [k.held_blk, k.held_nblk, k.keylen, k.nblk, k.dlen, k.blk, k.prog]
      exact ⟨hblk, hnblk, hkey, hcount, hle, hdec, fun a ha => k.dout a (hdone a ha)⟩
    key := fun _ => (Nat.eq_or_lt_of_le lo).elim (fun e => key e.symm) fun l => k.held_K (h.key l)
    rc := fun r => by
      by_cases e : s.upc.toNat = 2
      · exact rc e
      · exact k.held_RC (h.rc (by omega))
    words := fun i hw => by
      by_cases old : i.val < wordsReady s.upc.toNat
      · exact k.held_W i (h.words i old)
      · rw [hu, wordsReady_succ] at hw
        split_ifs at hw with hnew
        · exact words hnew i (by omega) hw
        · exact absurd hw old
    block := fun b => by
      rw [k.blk, k.nblk]
      by_cases e : s.upc.toNat = 13
      · exact block e
      · exact h.block (by omega)
    state := fun _ _ => state (by omega) (by omega)
    stored := fun _ a ha => by
      rw [k.blk] at ha
      by_cases done : a < 16 * s.blk
      · exact k.dout a (hdone a done)
      · exact stored (by omega) a (by omega) ha }

/-- R177: what CHKARGS has checked when it finds nothing wrong. -/
theorem argumentFault_eq_none {s : State} (h : argumentFault s = none) :
    s.keylen.toNat ≤ 16 ∧ (s.prog = .dec → s.dlen % 16 = 0) := by
  unfold argumentFault at h
  split_ifs at h with hk hd
  exact ⟨by omega, fun hp => by_contra fun hm => hd ⟨hp, hm⟩⟩

theorem RunInv.chkargs {s : State} (hu : s.upc.toNat = 0) (ha : argumentFault s = none) :
    RunInv (advance (writeBlk 0 (writeNblk (blockCount s.dlen) s))) := by
  obtain ⟨hkey, hdec⟩ := argumentFault_eq_none ha
  have hu' : (advance (writeBlk 0 (writeNblk (blockCount s.dlen) s))).upc.toNat = 1 := by
    simp [hu]
  exact {
    upc_le := by omega
    started := fun _ => by simpa [hkey] using hdec
    key := by omega
    rc := by omega
    words := fun i hi => by rw [hu'] at hi; exact absurd hi (Nat.not_lt_zero _)
    block := by omega
    state := by omega
    stored := by omega }

theorem RunInv.nextblk {s : State} (h : RunInv s) (hu : s.upc.toNat = 56) :
    RunInv (jumpTo loopHead (writeBlk (s.blk + 1) s)) := by
  obtain ⟨-, hnblk, hkey, hcount, -, hdec, -⟩ := h.started (by omega)
  have hu' : (jumpTo loopHead (writeBlk (s.blk + 1) s)).upc.toNat = 13 := by simp [loopHead]
  have hblk : s.blk < s.nblk := h.block (by omega)
  exact {
    upc_le := by omega
    started := fun _ => by
      simpa [hnblk, hkey, hcount, State.byteAt, Nat.mul_add] using
        ⟨hcount ▸ hblk, hdec, h.stored hu⟩
    key := fun _ => by simpa using h.key (by omega)
    rc := fun _ => by simpa using h.rc (by omega)
    words := fun i _ => by simpa using h.words i (by rw [hu]; simp [wordsReady])
    block := by omega
    state := by omega
    stored := by omega }

theorem expandIndex_eq_some {j : BitVec 4} {n : Fin 10} (h : expandIndex j = some n) : j.toNat = n.val + 1 := by
  unfold expandIndex at h
  split_ifs at h with hj
  cases h
  exact (Nat.sub_add_cancel hj.1).symm

/-- R34, R181: the next index of a running command, when a micro-op in its place has let the command go on. -/
theorem RunInv.effect {s t : State} {i : Instr} (h : RunInv s) (hi : placedAt i s.upc.toNat = true)
    (he : Effect s i t) (hp : t.phase = .busy) : RunInv t := by
  have k : straight i = true → KeepsRun s t := he.keepsRun
  cases he with
  | chkargs ha => exact .chkargs (by simpa [placedAt] using hi) ha
  | keyload =>
    have hu : s.upc.toNat = 1 := by simpa [placedAt] using hi
    refine h.next (k rfl) (by omega) (by omega) (key := fun _ => by simp)
      (words := fun _ i _ hlt => ?_)
    have : i.val < 4 := by simpa [hu, wordsReady] using hlt
    simp [seedWords_held_get, this]
  | rcongen =>
    have hu : s.upc.toNat = 2 := by simpa [placedAt] using hi
    exact h.next (k rfl) (by omega) (by omega) (rc := fun _ => by simp)
  | kexpr j n hn =>
    simp only [placedAt, decide_eq_true_eq] at hi
    have hj := expandIndex_eq_some hn
    refine h.next (k rfl) (by omega) (by omega) (words := fun _ i lo hlt => ?_)
    have : wordsReady s.upc.toNat = 4 * n.val + 4 := by rw [hi.1, hj, wordsReady]; split_ifs <;> omega
    have : 4 * n.val + 4 ≤ i.val ∧ i.val < 4 * n.val + 8 := by omega
    simp [writeRoundKey_held_get, this]
  | blktestOn hb =>
    have hu : s.upc.toNat = 13 := by simpa [placedAt] using hi
    exact h.next (advance_keepsRun s) (by omega) (by omega) (block := fun _ => hb)
  | pack =>
    have hu : s.upc.toNat = 14 := by simpa [placedAt] using hi
    exact h.next (k rfl) (by omega) (by omega) (state := fun _ _ => by simp)
  | unpack =>
    have hu : s.upc.toNat = 55 := by simpa [placedAt] using hi
    refine h.next (k rfl) (by omega) (by omega) (stored := fun _ a lo hlt => ?_)
    simp [State.byteAt, isSome_read_writeAll, blockBase, lo, hlt]
  | nextblk => exact h.nextblk (by simpa [placedAt] using hi)
  | chkargsFault | blktestEnd => simp at hp
  | encrypt | decrypt => cases hi
  | _ => -- ADDROUNDKEY and the six transforms
    simp only [placedAt, decide_eq_true_eq] at hi
    exact h.next (k rfl) (by omega) (by omega) (state := fun _ _ => by simp)

/-! ### The operations on the state -/

theorem CommandInv.keepsConfig {s t : State} (h : CommandInv s) (k : KeepsConfig s t) (inv : t.Inv)
    (olen_fits : t.params.size.admits t.olen = true)
    (result : t.phase = .done → ∀ a, a < t.olen → (t.byteAt .dout a).isSome = true)
    (run : t.phase = .busy → RunInv t) : CommandInv t where
  inv := inv
  size_wf := by rw [k.params]; exact h.size_wf
  enc := k.enc.trans h.enc
  dec := k.dec.trans h.dec
  olen_fits := olen_fits
  result := result
  run := run

theorem CommandInv.takeEvent {s : State} (h : CommandInv s) : CommandInv (takeEvent s) := { h with
  inv := h.inv.takeEvent
  run := fun hp => { h.run hp with } }

theorem CommandInv.answer {s : State} (h : CommandInv s) (n : Nat) : CommandInv (answer n s) := { h with
  inv := h.inv.answer n
  run := fun hp => { h.run hp with } }

theorem CommandInv.raise {s : State} (h : CommandInv s) (f : CoreFault) : CommandInv (raise f s) :=
  h.keepsConfig (raise_keepsConfig f s) (h.inv.raise f) (by simp) (by simp) (by simp)

/-- R31, R38: the blocks of a message that fits in DMAX fit in it, DMAX being a multiple of 16 (R7). -/
theorem admits_blockCount {z : Config.Sizing} {n : Nat} (hz : z.wf = true) (h : z.admits n = true) :
    z.admits (16 * blockCount n) = true := by
  cases z with
  | unbounded => rfl
  | bounded dmax lenw =>
    simp only [Config.Sizing.wf, Config.Sizing.admits, decide_eq_true_eq] at hz h
    exact decide_eq_true (by unfold blockCount; omega)

/-- R178: the blocks before BLK are stored, so at the end all NBLK of them are. -/
theorem CommandInv.finish {s : State} (h : CommandInv s) (hp : s.phase = .busy) (hu : s.upc.toNat = 13)
    (hb : ¬ s.blk < s.nblk) : CommandInv (finish s) := by
  obtain ⟨-, -, -, hcount, hle, -, hdone⟩ := (h.run hp).started (by omega)
  have hblk : s.nblk = s.blk := by omega
  refine h.keepsConfig (finish_keepsConfig s) (h.inv.finish hp) ?_ (fun _ a ha => ?_) (by simp)
  · simpa [hcount] using admits_blockCount h.size_wf h.inv.dlen_fits
  · simpa [State.byteAt] using hdone a (by simpa [hblk] using ha)

theorem CommandInv.latchCommand {s : State} (h : CommandInv s) (v : Byte) : CommandInv (latchCommand v s) := { h with
  inv := h.inv.latchCommand v
  olen_fits := admits_zero _
  result := by simp
  run := fun hp => { h.run hp with } }

/-- R173: a command starts at index 0, which needs no register but PROG and UPC. -/
theorem CommandInv.enter {s : State} (h : CommandInv s) (hz : s.olen = 0) (p : ProgSel) : CommandInv (enter p s) :=
  h.keepsConfig (by constructor <;> simp) (h.inv.enter hz p) (by simp [hz]) (by simp) fun _ => {
    upc_le := by simp
    started := by simp
    key := by simp
    rc := by simp
    words := by simp [wordsReady]
    block := by simp
    state := by simp
    stored := by simp }

theorem CommandInv.resetCore {s : State} (h : CommandInv s) : CommandInv (resetCore s) := { h with
  inv := resetCore_inv s
  olen_fits := admits_zero _
  result := nofun
  run := nofun }

theorem CommandInv.effect {s t : State} {i : Instr} (h : CommandInv s) (hp : s.phase = .busy)
    (hi : fetched s = some i) (he : Effect s i t) : CommandInv t := by
  have hplace := fetched_placedAt h hp hi
  rcases he.goesOn_or_ends hp with g | ⟨-, f, -, rfl⟩ | ⟨rfl, hb, rfl⟩
  · refine h.keepsConfig g.toKeepsConfig (h.inv.effect hp he) ?_ (fun hd => ?_) ((h.run hp).effect hplace he)
    · rw [g.params, g.olen]; exact h.olen_fits
    · simp [g.phase, hp] at hd
  · exact h.raise f
  · exact h.finish hp (by simpa [placedAt] using hplace) hb

/-! ### The step -/

theorem CommandInv.stepEffect {s t : State} (h : CommandInv s) (he : StepEffect s t) : CommandInv t := by
  have inv := h.inv.stepEffect he
  cases he with
  | idle | ignored => exact h.takeEvent
  | run _ hp i hi _ he => exact h.takeEvent.effect hp hi he
  | badFetch => exact h.takeEvent.raise _
  | encrypt | decrypt => exact (h.takeEvent.latchCommand _).enter rfl _
  | badCommand => exact (h.takeEvent.latchCommand _).raise _
  | read => exact h.takeEvent.answer _
  | keylen _ hp | dlen _ hp | ctrl _ hp | keybuf _ hp | din _ hp =>
    exact { h with inv := inv, run := fun hb => absurd hb hp }
  | reset => exact h.takeEvent.resetCore

/-- Settles O45: by the inversion of the step; what each index of the micro-program needs is RunInv, which every
micro-op hands on to the next. -/
theorem stepKeepsCommandInv : Obligations.StepKeepsCommandInv := by
  intro s t h hs
  exact h.stepEffect (step_effect hs)

end Sys2Proof.Machine
end

section
/-! What the two invariants and the inversion of the step give: a command reads held registers only, the ROMs never
change, STATUS moves along the transitions of R37. -/

namespace Sys2Proof.Machine

/-! ### The registers a micro-op reads -/

/-- A round key holds a value when its four words do. -/
theorem Held.roundKey_of_words {h : Held} {w : Nat} (hw : ∀ i : Fin 44, i.val < w → h.W[i] = true) (n : Fin 11)
    (hn : 4 * n.val + 3 < w) : h.roundKey n = true := by
  have word (k : Nat) (hk : k < 4) : h.W[4 * n.val + k] = true := hw ⟨4 * n.val + k, by omega⟩ (by simp; omega)
  simp [Held.roundKey, word 1, word 2, word 3, show h.W[4 * n.val] = true from word 0 (by omega)]

/-- R21, R181: a micro-op in its place reads only registers that the micro-ops before it, or the HOST, have written. -/
theorem RunInv.readsHeld {s : State} {i : Instr} (h : RunInv s) (hi : placedAt i s.upc.toNat = true)
    (hkey : s.held.keylen = true) (hdlen : s.held.dlen = true) (hprog : s.held.prog = true) :
    readsHeld i s = true := by
  have hblk : 1 ≤ s.upc.toNat → s.held.blk = true ∧ s.held.nblk = true := fun lo => by
    obtain ⟨hblk, hnblk, -⟩ := h.started lo
    exact ⟨hblk, hnblk⟩
  cases i with
  | keyload => exact hkey
  | rcongen => rfl
  | kexpr j =>
    simp only [placedAt, decide_eq_true_eq] at hi
    simp only [Machine.readsHeld]
    split
    · rename_i n hn
      have hj := expandIndex_eq_some hn
      have ready : 4 * n.val + 3 < wordsReady s.upc.toNat := by rw [hi.1, hj, wordsReady]; split_ifs <;> omega
      simp [h.rc (by omega), Held.roundKey_of_words h.words ⟨n.val, by omega⟩ ready]
    · rfl
  | addroundkey r =>
    simp only [placedAt, decide_eq_true_eq] at hi
    have ready : 4 * r.toNat + 3 < wordsReady s.upc.toNat := by rw [wordsReady]; split_ifs <;> omega
    have hr : r.toNat < 11 := by omega
    simp [Machine.readsHeld, h.state (by omega) (by omega), hr, Held.roundKey_of_words h.words ⟨r.toNat, hr⟩ ready]
  | subbytes | invsubbytes | shiftrows | invshiftrows | mixcolumns | invmixcolumns =>
    simp only [placedAt, decide_eq_true_eq] at hi
    exact h.state (by omega) (by omega)
  | chkargs => simp [Machine.readsHeld, hkey, hdlen, hprog]
  | encrypt | decrypt => rfl
  | unpack =>
    simp only [placedAt, decide_eq_true_eq] at hi
    simp [Machine.readsHeld, hblk (by omega), h.state (by omega) (by omega)]
  | pack | blktest | nextblk =>
    simp only [placedAt, decide_eq_true_eq] at hi
    simp [Machine.readsHeld, hdlen, hblk (by omega)]

theorem CommandInv.fetchHeld {s : State} (h : CommandInv s) (hkey : s.held.keylen = true) (hdlen : s.held.dlen = true)
    (hp : s.phase = .busy) : fetchHeld s = true := by
  obtain ⟨hprog, hupc⟩ := h.inv.control hp
  unfold Machine.fetchHeld
  cases hi : fetched s with
  | none => simp [hprog, hupc]
  | some i => simp [hprog, hupc, (h.run hp).readsHeld (fetched_placedAt h hp hi) hkey hdlen hprog]

/-- Settles O46: every micro-op in its place reads held registers, so strictStep never takes its fault. -/
theorem commandReadsOnlyHeld : Obligations.CommandReadsOnlyHeld := by
  intro s h hkey hdlen
  have held := h.fetchHeld hkey hdlen
  refine ⟨held, if_neg ?_⟩
  rintro ⟨-, hp, hf⟩
  simp [held hp] at hf

/-! ### The ROMs and the parameters -/

theorem Effect.keepsConfig {s t : State} {i : Instr} (h : Effect s i t) (hp : s.phase = .busy) : KeepsConfig s t := by
  rcases h.goesOn_or_ends hp with g | ⟨-, f, -, rfl⟩ | ⟨-, -, rfl⟩
  · exact g.toKeepsConfig
  · exact raise_keepsConfig f s
  · exact finish_keepsConfig s

/-- R45: what no step changes. -/
theorem StepEffect.constants {s t : State} (h : StepEffect s t) :
    t.params = s.params ∧ t.encProg = s.encProg ∧ t.decProg = s.decProg := by
  cases h with
  | run _ hp i _ _ he =>
    have k := he.keepsConfig hp
    exact ⟨k.params, k.enc, k.dec⟩
  | reset => exact ⟨rfl, rfl, rfl⟩
  | _ => simp

/-- Settles O49: FSBOX and ISBOX are no part of the state, and the two images are among what no step changes. -/
theorem romsNeverChange : Obligations.RomsNeverChange := by
  intro s t hs
  obtain ⟨hparams, henc, hdec⟩ := (step_effect hs).constants
  refine ⟨hparams, fun sp a hsp => ?_⟩
  cases sp with
  | fsbox | isbox => rfl
  | encProg => simp only [State.byteAt, henc]
  | decProg => simp only [State.byteAt, hdec]
  | keybuf | din | dout => simp at hsp

/-! ### STATUS -/

/-- Settles O50: by the inversion of the step, one transition for each of its cases. -/
theorem statusTransitions : Obligations.StatusTransitions := by
  intro s t hs
  cases step_effect hs with
  | idle | read | ignored | keylen | dlen | ctrl | keybuf | din => exact .inl ⟨rfl, rfl⟩
  | reset rest hr => exact .inr (.inl ⟨rest, hr, rfl, rfl⟩)
  | encrypt _ hp | decrypt _ hp => exact .inr (.inr (.inl ⟨hp, by simp⟩))
  | badFetch _ hp => exact .inr (.inr (.inr (.inr ⟨by simp, .illegalMicroOp, by simp, fun hb => absurd hp hb⟩)))
  | badCommand => exact .inr (.inr (.inr (.inr ⟨by simp, _, by simp, fun _ => rfl⟩)))
  | run _ hp i hi _ he =>
    rcases he.goesOn_or_ends hp with g | ⟨-, f, -, rfl⟩ | ⟨rfl, hb, rfl⟩
    · exact .inl ⟨g.phase, g.err⟩
    · exact .inr (.inr (.inr (.inr ⟨by simp, f, by simp, fun hb => absurd hp hb⟩)))
    · exact .inr (.inr (.inr (.inl ⟨hp, hi, hb, by simp⟩)))

end Sys2Proof.Machine
end

section
/-! The CORE's turn without a micro-op, and the HOST's accesses while no command runs (R41, R42, R50). -/

namespace Sys2Proof.Machine

/-! ### The CORE's turn -/

/-- R34: both ROMs end at index 56. -/
theorem fetched_eq_none {s : State} (h : 56 < s.upc.toNat) : fetched s = none := by
  have : fetchWord s = none := by
    unfold fetchWord
    cases s.prog <;> exact Vector.getElem?_eq_none (by omega)
  simp only [fetched, this]

/-- R182: with no command running the CORE takes no step. -/
theorem coreTurn_of_not_busy {s : State} (hp : s.phase ≠ .busy) : coreTurn s = .next s := if_neg hp

/-- R195: a fetch that gives no micro-op. -/
theorem coreTurn_of_fetched_none {s : State} (hp : s.phase = .busy) (hf : fetched s = none) :
    coreTurn s = .next (raise .illegalMicroOp s) := by
  rw [coreTurn, if_pos hp, hf]

/-- Settles O33: the two branches of the CORE's turn that run no micro-op. -/
theorem coreTurnWithoutMicroOp : Obligations.CoreTurnWithoutMicroOp := by
  intro s rest hn
  rw [hn.step_eq]
  exact ⟨fun hp hu => coreTurn_of_fetched_none hp (fetched_eq_none hu), fun hp => coreTurn_of_not_busy hp⟩

/-! ### The HOST's turn -/

/-- A HOST access that is no command is a step of its own. -/
theorem step_host {s : State} {m : HostMove} {rest : List Event} (hs : s.sched = .host m :: rest)
    (hm : commandByte m = none) : step s = hostAccess m { s with sched := rest } := by
  simp only [step, hs, hostTurn, hm]

/-- R201 holds back no access while no command runs. -/
theorem unlessBusy_of_not_busy {s : State} (hp : s.phase ≠ .busy) (x : Res State) : unlessBusy s x = x := if_neg hp

theorem step_writeCr {s : State} {cr v : Nat} {rest : List Event} (hs : s.sched = .host (.writeCr cr v) :: rest)
    (hp : s.phase ≠ .busy) (hcr : cr ≠ 0) : step s = writeControl cr v { s with sched := rest } := by
  have hm : commandByte (.writeCr cr v) = none := by
    cases cr with
    | zero => exact absurd rfl hcr
    | succ => rfl
  exact (step_host hs hm).trans (unlessBusy_of_not_busy hp _)

theorem step_writeSpace {s : State} {sp : Space} {a : Nat} {b : Byte} {rest : List Event}
    (hs : s.sched = .host (.writeSpace sp a b) :: rest) (hp : s.phase ≠ .busy) :
    step s = hostWriteSpace sp a b { s with sched := rest } :=
  (step_host hs rfl).trans (unlessBusy_of_not_busy hp _)

theorem step_readSpace {s : State} {sp : Space} {a : Nat} {rest : List Event}
    (hs : s.sched = .host (.readSpace sp a) :: rest) (hp : s.phase ≠ .busy) :
    step s = hostReadSpace sp a { s with sched := rest } :=
  (step_host hs rfl).trans (unlessBusy_of_not_busy hp _)

/-! ### Control registers -/

/-- A read of a control register while no command runs answers what the register reads as. -/
theorem hostReadCr_of_readControl {s : State} {cr n : Nat} (hp : s.phase ≠ .busy) (h : readControl s cr = some n) :
    hostReadCr cr s = .next (answer n s) := by
  rw [hostReadCr, if_neg fun hb => hp hb.1, h]

/-- R41: there is no control register from CR6 on. -/
theorem hostReadCr_eq_refused {s : State} {cr : Nat} (hp : s.phase ≠ .busy) (h : 6 ≤ cr) :
    hostReadCr cr s = .refused .hostNoPath := by
  obtain ⟨k, rfl⟩ := Nat.exists_eq_add_of_le' h
  exact if_neg fun hb => hp hb.1

theorem writeControl_eq_refused {s : State} {cr v : Nat} (h : 6 ≤ cr) :
    writeControl cr v s = .refused .hostNoPath := by
  obtain ⟨k, rfl⟩ := Nat.exists_eq_add_of_le' h
  rfl

/-- Settles O36: the register's value is answered, one register after the other. -/
theorem hostReadsControl : Obligations.HostReadsControl := by
  intro s rest cr hp hs
  rw [step_host hs rfl]
  refine ⟨fun hcr => hostReadCr_eq_refused hp hcr, fun n hn => hostReadCr_of_readControl hp ?_⟩
  simp only [List.mem_cons, Prod.mk.injEq, List.not_mem_nil, or_false] at hn
  rcases hn with ⟨rfl, rfl⟩ | ⟨rfl, rfl⟩ | ⟨rfl, rfl⟩ | ⟨rfl, rfl⟩ | ⟨rfl, rfl⟩ | ⟨rfl, rfl⟩ <;> rfl

/-- R40: bit 0 of what is written to CTRL says whether the number is odd. -/
theorem traceEnable_ofNat (p : Config.Params) (v : Nat) :
    traceEnable p (BitVec.ofNat 8 v) = (decide (v % 2 = 1) && p.tracePort) := by
  rw [traceEnable, BitVec.getLsbD_ofNat]
  simp [Nat.testBit_zero]

/-- Settles O37: the register's own write, one register after the other. -/
theorem hostWritesControl : Obligations.HostWritesControl := by
  intro s rest cr v hp hs
  have write : cr ≠ 0 → step s = writeControl cr v { s with sched := rest } := step_writeCr hs hp
  refine ⟨?status, ?keylen, ?dlenFits, ?dlenTooLong, ?ctrl, ?noRegister⟩
  case status => rintro (rfl | rfl) <;> exact write (by decide)
  case keylen => rintro rfl; exact write (by decide)
  case dlenFits =>
    rintro rfl hv
    exact (write (by decide)).trans (if_pos hv)
  case dlenTooLong =>
    rintro rfl hv
    exact (write (by decide)).trans (if_neg (by simp [hv]))
  case ctrl =>
    rintro rfl hv
    rw [write (by decide), ← traceEnable_ofNat]
    exact if_pos hv
  case noRegister =>
    intro hcr
    exact (write (by omega)).trans (writeControl_eq_refused hcr)

/-! ### Buffers -/

/-- A byte outside its space is not written. -/
theorem memWrite_eq_refused {s : State} {sp : Space} {a : Nat} {v : List Byte}
    (h : s.inSpace sp a v.length = false) : memWrite s sp a v = .refused .accessOutsideSpace :=
  if_neg (by simp [h])

/-- R50: one byte of KEYBUF or DIN written. -/
theorem memWrite_byte {s : State} {sp : Space} {a : Nat} {b : Byte} (hsp : sp = .keybuf ∨ sp = .din)
    (h : s.inSpace sp a 1 = true) :
    ∃ t, memWrite s sp a [b] = .next t ∧ t.byteAt sp a = some b ∧
      (∀ sp' a', sp' ≠ sp ∨ a' ≠ a → t.byteAt sp' a' = s.byteAt sp' a') ∧
      t = { s with keybuf := t.keybuf, din := t.din } := by
  rcases hsp with rfl | rfl
  · refine ⟨_, if_pos h, Memory.read_write_same .., fun sp' a' hne => ?_, rfl⟩
    cases sp' with
    | keybuf => exact Memory.read_write_other _ _ (hne.resolve_left (not_not_intro rfl))
    | _ => rfl
  · refine ⟨_, if_pos h, Memory.read_write_same .., fun sp' a' hne => ?_, rfl⟩
    cases sp' with
    | din => exact Memory.read_write_other _ _ (hne.resolve_left (not_not_intro rfl))
    | _ => rfl

/-- Settles O38: a HOST write of a byte is MemWrite of that byte. -/
theorem hostWritesBuffers : Obligations.HostWritesBuffers := by
  intro s rest sp a b hp hs
  rw [step_writeSpace hs hp]
  constructor
  · intro hsp
    have hw : hostWriteSpace sp a b { s with sched := rest } = memWrite { s with sched := rest } sp a [b] := by
      rcases hsp with rfl | rfl <;> rfl
    rw [hw]
    refine ⟨fun hout => memWrite_eq_refused hout, fun hin => ?_⟩
    obtain ⟨t, ht, hbyte, hother, hframe⟩ := memWrite_byte (s := { s with sched := rest }) (b := b) hsp hin
    exact ⟨t, ht, hbyte, hother, hframe⟩
  · intro hk hd
    cases sp with
    | keybuf => exact absurd rfl hk
    | din => exact absurd rfl hd
    | _ => rfl

/-- A byte of DOUT at DONE below OLEN, within DMAX. -/
theorem hostReadSpace_valid {s : State} {a : Nat} {b : Byte} (hd : s.phase = .done) (hlt : a < s.olen)
    (hin : s.inSpace .dout a 1 = true) (hb : s.byteAt .dout a = some b) :
    hostReadSpace .dout a s = .next (answer b.toNat s) := by
  have hread : memRead s .dout a 1 = .next [b] := memRead_eq_next.2 ⟨hin, by simp only [collect, hb]⟩
  rw [hostReadSpace, if_pos ⟨hd, hlt⟩, hread]
  rfl

/-- Any other byte of DOUT is not valid (log 10). -/
theorem hostReadSpace_invalid {s : State} {a : Nat} (h : s.phase ≠ .done ∨ s.olen ≤ a) :
    hostReadSpace .dout a s = .fault .unwrittenRead :=
  if_neg fun ⟨hd, hlt⟩ => h.elim (fun hne => hne hd) (Nat.not_le.2 hlt)

theorem hostReadSpace_no_path {s : State} {sp : Space} {a : Nat} (h : sp ≠ .dout) :
    hostReadSpace sp a s = .refused .hostNoPath := by
  cases sp with
  | dout => exact absurd rfl h
  | _ => rfl

/-- Settles O39: the three things a HOST read of a byte can meet. -/
theorem hostReadsResult : Obligations.HostReadsResult := by
  intro s rest sp a hp hs
  rw [step_readSpace hs hp]
  refine ⟨hostReadSpace_no_path, ?_⟩
  rintro rfl
  exact ⟨fun h => hostReadSpace_invalid h, fun b hd hlt hin hb => hostReadSpace_valid hd hlt hin hb⟩

end Sys2Proof.Machine
end

section
/-! The trace port (R40, R211) has no effect on what an instruction answers. -/

namespace Sys2Proof.Machine

/-- The state with TRACE_EN at `b` and `l` emitted so far. -/
def retrace (b : Bool) (l : List TraceEvent) (s : State) : State := { s with traceEn := b, trace := l }

/-- Two answers alike but for the trace port: the second state is the first with TRACE_EN at `b` and some other trace. -/
inductive TraceAlike (b : Bool) : Res State → Res State → Prop
  | next (t : State) (l : List TraceEvent) : TraceAlike b (.next t) (.next (retrace b l t))
  | fault (r : Fault) : TraceAlike b (.fault r) (.fault r)
  | refused (r : Refusal) : TraceAlike b (.refused r) (.refused r)

theorem TraceAlike.ite {b : Bool} {c : Prop} [Decidable c] {x x' y y' : Res State} (h : TraceAlike b x y)
    (h' : TraceAlike b x' y') : TraceAlike b (if c then x else x') (if c then y else y') := by
  by_cases hc : c
  · rw [if_pos hc, if_pos hc]; exact h
  · rw [if_neg hc, if_neg hc]; exact h'

/-- The bytes MemRead answers come from no trace port. -/
theorem TraceAlike.andThen_read {α : Type} {b : Bool} (x : Res α) {f g : α → Res State}
    (h : ∀ a, TraceAlike b (f a) (g a)) : TraceAlike b (Res.andThen x f) (Res.andThen x g) := by
  cases x with
  | next a => exact h a
  | fault r => exact .fault r
  | refused r => exact .refused r

theorem TraceAlike.andThen {b : Bool} {x y : Res State} {f : State → Res State} (h : TraceAlike b x y)
    (hf : ∀ t l, TraceAlike b (f t) (f (retrace b l t))) : TraceAlike b (Res.andThen x f) (Res.andThen y f) := by
  cases h with
  | next t l => exact hf t l
  | fault r => exact .fault r
  | refused r => exact .refused r

theorem TraceAlike.memWrite_dout (b : Bool) (l : List TraceEvent) (s : State) (a : Nat) (v : List Byte) :
    TraceAlike b (memWrite s .dout a v) (memWrite (retrace b l s) .dout a v) := by
  have hin : (retrace b l s).inSpace .dout a v.length = s.inSpace .dout a v.length := rfl
  simp only [memWrite, hin]
  exact .ite (.next _ l) (.refused _)

/-- A write of S differs in the event it emits, and in nothing else. -/
theorem TraceAlike.writeS (b : Bool) (l : List TraceEvent) (i : Instr) (m : Mat) (s : State) :
    TraceAlike b (.next (writeS i m s)) (.next (writeS i m (retrace b l s))) :=
  .next _ (l ++ traceEvents (retrace b l s) i m)

theorem TraceAlike.writeSOrRaise (b : Bool) (l : List TraceEvent) (i : Instr) (x : Except CoreFault Mat) (s : State) :
    TraceAlike b (.next (writeSOrRaise i x s)) (.next (writeSOrRaise i x (retrace b l s))) := by
  cases x with
  | ok m => exact .writeS b l i m s
  | error f => exact .next _ l

@[simp] theorem retrace_W (b : Bool) (l : List TraceEvent) (s : State) : (retrace b l s).W = s.W := rfl

@[simp] theorem argumentFault_retrace (b : Bool) (l : List TraceEvent) (s : State) :
    argumentFault (retrace b l s) = argumentFault s := rfl

/-- An instruction answers alike whatever the trace port does. -/
theorem exec_retrace (b : Bool) (l : List TraceEvent) (i : Instr) (s : State) :
    TraceAlike b (exec i s) (exec i (retrace b l s)) := by
  cases i with
  | keyload => exact .andThen_read _ fun key => .next _ l
  | rcongen | nextblk => exact .next _ l
  | kexpr j =>
    simp only [exec, execKexpr]
    cases expandIndex j with
    | some n => exact .next _ l
    | none => exact .refused _
  | pack =>
    refine .andThen_read _ fun chunk => ?_
    cases packChunk chunk with
    | some m => exact .writeS b l _ m s
    | none => exact .refused _
  | unpack => exact .andThen (.memWrite_dout b l s _ _) fun t l => .next _ l
  | addroundkey r =>
    simp only [exec, execAddroundkey, retrace_W]
    cases getSubkey s.W r.toNat with
    | some key => exact .writeS b l _ _ s
    | none => exact .refused _
  | subbytes | invsubbytes | shiftrows | invshiftrows => exact .writeS b l _ _ s
  | mixcolumns | invmixcolumns => exact .writeSOrRaise b l _ _ s
  | blktest =>
    simp only [exec, execBlktest, apply_ite Host.Outcome.next]
    exact .ite (.next _ l) (.next _ l)
  | chkargs =>
    simp only [exec, execChkargs, argumentFault_retrace]
    cases argumentFault s with
    | some f => exact .next _ l
    | none => exact .next _ l
  | encrypt | decrypt => exact .ite (.refused _) (.next _ l)

theorem TraceAlike.eq_next {b : Bool} {t : State} {y : Res State} (h : TraceAlike b (.next t) y) :
    ∃ l, y = .next (retrace b l t) := by
  cases h with
  | next _ l => exact ⟨l, rfl⟩

theorem TraceAlike.eq_fault {b : Bool} {r : Fault} {y : Res State} (h : TraceAlike b (.fault r) y) :
    y = .fault r := by
  cases h
  rfl

theorem TraceAlike.eq_refused {b : Bool} {r : Refusal} {y : Res State} (h : TraceAlike b (.refused r) y) :
    y = .refused r := by
  cases h
  rfl

/-- Settles O51: the answers are alike, outcome by outcome. -/
theorem traceHasNoEffect : Obligations.TraceHasNoEffect := by
  intro i s b l
  have alike : TraceAlike b (exec i s) (exec i { s with traceEn := b, trace := l }) := exec_retrace b l i s
  exact ⟨fun t ht => TraceAlike.eq_next (ht ▸ alike), fun r hr => TraceAlike.eq_fault (hr ▸ alike),
    fun r hr => TraceAlike.eq_refused (hr ▸ alike)⟩

end Sys2Proof.Machine
end

section
/-! The state after reset (R46) and the STATUS byte (R36, R190). -/

namespace Sys2Proof.Machine

/-! ### Reset -/

theorem resetCore_reset : resetCore State.reset = State.reset := rfl

/-- Settles O44: a reset of the machine after reset is the machine after reset, and no command runs. -/
theorem resetHasInvariants : Obligations.ResetHasInvariants := by
  have inv : State.reset.Inv := resetCore_reset ▸ resetCore_inv State.reset
  exact ⟨inv, {
    inv := inv
    size_wf := rfl
    enc := rfl
    dec := rfl
    olen_fits := rfl
    result := nofun
    run := nofun }⟩

/-- An S-box of the machine holds one entry for each byte. -/
theorem byteAt_sbox (s : State) (x : Byte) :
    s.byteAt .fsbox x.toNat = some (fsbox x) ∧ s.byteAt .isbox x.toNat = some (isbox x) := by
  simp [State.byteAt, x.isLt]

/-- Settles O40: the values of the table, and the three steps from there. -/
theorem resetValues : Obligations.ResetValues := by
  refine ⟨rfl, rfl, rfl, rfl, rfl, rfl, rfl, fun a => ⟨rfl, rfl, rfl⟩, rfl, rfl, byteAt_sbox _, rfl, ?encrypt, ?decrypt⟩
  case encrypt => exact ⟨_, rfl, rfl, rfl, rfl⟩
  case decrypt => exact ⟨_, rfl, rfl, rfl, rfl⟩

/-! ### STATUS -/

theorem phase_code_lt (p : Phase) : p.code < 4 := by cases p <;> decide

theorem errCode_lt (e : Option CoreFault) : errCode e < 8 := by
  cases e with
  | none => decide
  | some f => cases f <;> decide

theorem status_toNat (s : State) : s.status.toNat = s.phase.code + 4 * errCode s.err := by
  have := phase_code_lt s.phase
  have := errCode_lt s.err
  rw [State.status, BitVec.toNat_ofNat, Nat.mod_eq_of_lt (by omega)]

/-- R36: STATE is bits 1:0. -/
theorem status_state (s : State) : (s.status.extractLsb' 0 2).toNat = s.phase.code := by
  have := phase_code_lt s.phase
  rw [BitVec.extractLsb'_toNat, status_toNat, Nat.shiftRight_zero]
  omega

/-- R36: ERR is bits 4:2. -/
theorem status_err (s : State) : (s.status.extractLsb' 2 3).toNat = errCode s.err := by
  have := phase_code_lt s.phase
  have := errCode_lt s.err
  rw [BitVec.extractLsb'_toNat, status_toNat, Nat.shiftRight_eq_div_pow]
  omega

/-- R36: bits 7:5 read as 0. -/
theorem status_high (s : State) : s.status.extractLsb' 5 3 = 0 := by
  have := phase_code_lt s.phase
  have := errCode_lt s.err
  apply BitVec.eq_of_toNat_eq
  rw [BitVec.extractLsb'_toNat, status_toNat, Nat.shiftRight_eq_div_pow]
  simp
  omega

/-- Settles O42: the two fields are the codes of STATE and ERR, which are the numbers of R36 and R190. -/
theorem statusByte : Obligations.StatusByte := by
  intro s
  refine ⟨fun p hp hs => ?_, fun he => ?_, fun f hf he => ?_, status_high s⟩
  · rw [status_state, hs]
    clear hs; revert p; decide
  · rw [status_err, he]; rfl
  · rw [status_err, he]
    clear he; revert f; decide

end Sys2Proof.Machine
end

section
/-! What the CORE does in its turn reads no byte of DOUT and writes no input (R60): the inversions of exec and of the
CORE's turn as equivalences, and their cases with another DOUT in place. -/

namespace Sys2Proof.Machine

/-- The effects are exactly what exec answers: the converse of `exec_effect`. -/
theorem Effect.exec_eq {s t : State} {i : Instr} (h : Effect s i t) : exec i s = .next t := by
  cases h with
  | keyload key hin hkey => exact Res.andThen_eq_next.2 ⟨key, memRead_eq_next.2 ⟨hin, hkey⟩, rfl⟩
  | pack chunk hin hchunk => exact exec_pack hin hchunk
  | unpack hin => exact exec_unpack hin
  | kexpr j n hn => simp only [exec, execKexpr, hn]
  | addroundkey r n hr => simp only [exec, execAddroundkey, getSubkey, hr, n.isLt, dif_pos]
  | mixcolumns m hm => simp only [exec, execMixcolumns, hm, writeSOrRaise]
  | invmixcolumns m hm => simp only [exec, execInvmixcolumns, hm, writeSOrRaise]
  | blktestOn hb => exact congrArg Host.Outcome.next (if_pos hb)
  | blktestEnd hb => exact congrArg Host.Outcome.next (if_neg hb)
  | chkargs ha | chkargsFault f ha => simp only [exec, execChkargs, ha]
  | encrypt hp | decrypt hp => exact unlessBusy_of_not_busy hp _
  | rcongen | subbytes | invsubbytes | shiftrows | invshiftrows | nextblk => rfl

/-- R174, R182, R195: what the CORE does in its turn. -/
theorem coreTurn_eq_next {s t : State} :
    coreTurn s = .next t ↔
      (s.phase ≠ .busy ∧ t = s) ∨
      (s.phase = .busy ∧ ∃ i, fetched s = some i ∧ Effect s i t) ∨
      (s.phase = .busy ∧ fetched s = none ∧ t = raise .illegalMicroOp s) := by
  by_cases hp : s.phase = .busy
  · cases hf : fetched s with
    | none => simp [coreTurn_of_fetched_none hp hf, hp, eq_comm]
    | some i =>
      have run : coreTurn s = exec i s := by rw [coreTurn, if_pos hp, hf]
      simpa [run, hp] using ⟨exec_effect, Effect.exec_eq⟩
  · simp [coreTurn_of_not_busy hp, hp, eq_comm]

/-! ### The inputs -/

theorem raise_sameInputs (f : CoreFault) (s : State) : SameInputs s (raise f s) := by
  constructor <;> simp [State.byteAt]

/-- While a command runs, a micro-op writes none of the inputs. -/
theorem Effect.sameInputs {s t : State} {i : Instr} (h : Effect s i t) (hp : s.phase = .busy) : SameInputs s t := by
  cases h with
  | encrypt hb | decrypt hb => exact absurd hp hb
  | _ => constructor <;> simp [State.byteAt]

theorem coreTurn_sameInputs {s t : State} (h : coreTurn s = .next t) : SameInputs s t := by
  rcases coreTurn_eq_next.1 h with ⟨-, rfl⟩ | ⟨hp, i, -, he⟩ | ⟨-, -, rfl⟩
  · exact ⟨fun _ => rfl, fun _ => rfl, rfl, rfl, rfl, rfl⟩
  · exact he.sameInputs hp
  · exact raise_sameInputs _ s

/-! ### DOUT -/

/-- The state with `d` in DOUT. -/
def withDout (d : Memory) (s : State) : State := { s with dout := d }

/-- The fetch reads a ROM. -/
theorem fetched_withDout (d : Memory) (s : State) : fetched (withDout d s) = fetched s := by
  have hw : fetchWord (withDout d s) = fetchWord s := by
    obtain hs | hs : s.prog.space = .encProg ∨ s.prog.space = .decProg := by cases s.prog <;> simp [ProgSel.space]
    all_goals simp only [fetchWord, withDout, hs, State.byteAt]
  simp only [fetched, hw]

/-- What UNPACK does after its store commutes with a change of DOUT, which hides the store. -/
theorem withDout_advance_dropS (d m : Memory) (s : State) :
    withDout d (advance (dropS { s with dout := m })) = advance (dropS { s with dout := d }) := rfl

/-- With another DOUT an instruction has the same effect, but for DOUT: only UNPACK touches it, and it only writes.
The cases of BLKTEST and CHKARGS are named because each of these instructions has two effects. -/
theorem Effect.exists_withDout {s t : State} {i : Instr} (h : Effect s i t) (d : Memory) :
    ∃ d', Effect (withDout d s) i (withDout d' t) := by
  cases h with
  | unpack hin =>
    refine ⟨Memory.writeAll d (blockBase s) (unpackMat s.S).toList, ?_⟩
    rw [withDout_advance_dropS]
    exact .unpack hin
  | blktestOn hb => exact ⟨d, .blktestOn hb⟩
  | blktestEnd hb => exact ⟨d, .blktestEnd hb⟩
  | chkargs ha => exact ⟨d, .chkargs ha⟩
  | chkargsFault f hf => exact ⟨d, .chkargsFault f hf⟩
  | _ => exact ⟨d, by constructor <;> assumption⟩

/-- R60: the CORE's turn does not depend on DOUT. -/
theorem coreTurn_exists_withDout {s t : State} (h : coreTurn s = .next t) (d : Memory) :
    ∃ d', coreTurn (withDout d s) = .next (withDout d' t) := by
  simp only [coreTurn_eq_next, fetched_withDout]
  rcases coreTurn_eq_next.1 h with ⟨hp, rfl⟩ | ⟨hp, i, hi, he⟩ | ⟨hp, hf, rfl⟩
  · exact ⟨d, .inl ⟨hp, rfl⟩⟩
  · obtain ⟨d', he'⟩ := he.exists_withDout d
    exact ⟨d', .inr (.inl ⟨hp, i, hi, he'⟩)⟩
  · exact ⟨d, .inr (.inr ⟨hp, hf, rfl⟩)⟩

/-- Settles O48: both halves are facts of the CORE's turn, which the step takes once the event is off the schedule. -/
theorem coreKeepsInputs : Obligations.CoreKeepsInputs := by
  refine ⟨fun s t hc hs => ?_, fun s t d hc hs => ?_⟩ <;> rw [step_of_coreMoves hc] at hs
  · exact { coreTurn_sameInputs hs with }
  · obtain ⟨d', ht⟩ := coreTurn_exists_withDout hs d
    have hc' : coreMoves (withDout d s) = true := hc
    exact ⟨withDout d' t, (step_of_coreMoves hc').trans ht, rfl⟩

end Sys2Proof.Machine
end

section
/-! The decoder and the encoder are inverse to each other (R70 to R76): decoding as an equivalence in the fields of the
word, the illegal words, and the micro-programs as the words of their listings. -/

namespace Sys2Proof.Machine

open Sys2Proof.Laws.WordFields (Statement fields_microWord)

/-! ### The fields of a word (R70 to R72) -/

/-- R70: a word is put together from its OP and its ARG. -/
theorem microWord_fields (w : Byte) : microWord (opField w) (argField w) = w := by
  revert w; decide

/-- The fields of the word of every instruction. -/
theorem encode_fields (i : Instr) : Statement i := by
  cases i with
  | encrypt | decrypt => exact ⟨rfl, rfl⟩
  | _ => exact fields_microWord _ _

theorem plainOp_eq_some {op : BitVec 4} {i : Instr} (h : plainOp op = some i) :
    i.format = .microOp ∧ i.wf = true ∧ encode i = microWord op 0 := by
  have key : ∀ op : BitVec 4, ∀ i ∈ plainOp op, i.format = .microOp ∧ i.wf = true ∧ encode i = microWord op 0 := by
    decide
  exact key op i h

/-- R72: the operations whose ARG must be 0. -/
theorem exists_plainOp (op : BitVec 4) :
    (∃ i, plainOp op = some i) ↔ op.toNat ≠ 0 ∧ op.toNat ≠ 3 ∧ op.toNat ≠ 6 := by
  rw [← Option.isSome_iff_exists]
  revert op; decide

/-! ### Decoding a micro-op word (R73) -/

/-- R73: the three ways in which a word is an instruction. -/
theorem decodeMicro_eq_ok {w : Byte} {i : Instr} :
    decodeMicro w = .ok i ↔
      (opField w = 0x3 ∧ legalExpandIndex (argField w) = true ∧ i = .kexpr (argField w)) ∨
      (opField w = 0x6 ∧ legalRoundIndex (argField w) = true ∧ i = .addroundkey (argField w)) ∨
      (argField w = 0 ∧ plainOp (opField w) = some i) := by
  constructor
  · intro h
    unfold decodeMicro at h
    split_ifs at h with expand round harg
    · cases h; exact .inl ⟨expand.1, expand.2, rfl⟩
    · cases h; exact .inr (.inl ⟨round.1, round.2, rfl⟩)
    · split at h <;> cases h
      exact .inr (.inr ⟨harg, ‹_›⟩)
  · rintro (⟨hop, harg, rfl⟩ | ⟨hop, harg, rfl⟩ | ⟨harg, hp⟩)
    · exact if_pos ⟨hop, harg⟩
    · have notExpand : opField w ≠ 0x3 := by rw [hop]; decide
      rw [decodeMicro, if_neg fun h => notExpand h.1, if_pos ⟨hop, harg⟩]
    · have notExpand : opField w ≠ 0x3 := by intro h; rw [h] at hp; cases hp
      have notRound : opField w ≠ 0x6 := by intro h; rw [h] at hp; cases hp
      rw [decodeMicro, if_neg fun h => notExpand h.1, if_neg fun h => notRound h.1, if_pos harg, hp]

/-- The fields of a well-formed micro-op's word meet R73's case for it. -/
theorem decodeMicro_encode {i : Instr} (hf : i.format = .microOp) (hw : i.wf = true) : decodeMicro (encode i) = .ok i := by
  obtain ⟨hop, harg⟩ := encode_fields i
  rw [decodeMicro_eq_ok, hop, harg]
  cases i with
  | kexpr j => exact .inl ⟨rfl, hw, rfl⟩
  | addroundkey r => exact .inr (.inl ⟨rfl, hw, rfl⟩)
  | encrypt | decrypt => cases hf
  | _ => exact .inr (.inr ⟨rfl, rfl⟩)

theorem encode_of_decodeMicro {w : Byte} {i : Instr} (h : decodeMicro w = .ok i) :
    i.format = .microOp ∧ i.wf = true ∧ encode i = w := by
  rw [← microWord_fields w]
  rcases decodeMicro_eq_ok.1 h with ⟨hop, harg, rfl⟩ | ⟨hop, harg, rfl⟩ | ⟨harg, hp⟩
  · exact ⟨rfl, harg, by rw [hop, encode]⟩
  · exact ⟨rfl, harg, by rw [hop, encode]⟩
  · rw [harg]; exact plainOp_eq_some hp

/-! ### Decoding a command byte (R76, R77) -/

theorem decodeCommand_encode {i : Instr} (hf : i.format = .hostCommand) : decodeCommand (encode i) = .ok i := by
  cases i with
  | encrypt | decrypt => rfl
  | _ => cases hf

theorem encode_of_decodeCommand {v : Byte} {i : Instr} (h : decodeCommand v = .ok i) :
    i.format = .hostCommand ∧ i.wf = true ∧ encode i = v := by
  rcases decodeCommand_ok h with ⟨rfl, rfl⟩ | ⟨rfl, rfl⟩ <;> exact ⟨rfl, rfl, rfl⟩

/-- Settles O2: a micro-op by the fields of its word, a command by its code. -/
theorem decodeOfEncode : Obligations.DecodeOfEncode := fun _ hw =>
  ⟨fun hf => decodeMicro_encode hf hw, decodeCommand_encode⟩

/-- Settles O3: each decoder by its inversion. -/
theorem decodedWordsAreEncodings : Obligations.DecodedWordsAreEncodings := fun _ _ =>
  ⟨encode_of_decodeMicro, encode_of_decodeCommand⟩

/-- Settles O1: every listed word is the word of its well-formed instruction. -/
theorem knownWordsDecode : Obligations.KnownWordsDecode := by
  refine ⟨fun p hp => ?_, decodeCommand_encode (i := .encrypt) rfl, decodeCommand_encode (i := .decrypt) rfl⟩
  have words : p.2.format = .microOp ∧ p.2.wf = true ∧ encode p.2 = p.1 := by revert p; decide
  obtain ⟨hf, hw, he⟩ := words
  rw [← he]
  exact decodeMicro_encode hf hw

/-! ### Illegal words (R74) -/

/-- A rejected word is named in the reject. -/
theorem decodeMicro_eq_error {w : Byte} {r : DecodeReject} (h : decodeMicro w = .error r) : r = .illegalMicroOp w := by
  unfold decodeMicro at h
  split_ifs at h
  · split at h <;> cases h
    rfl
  · cases h; rfl

/-- Decoding is total: a word is rejected where it is no instruction. -/
theorem decodeMicro_eq_illegal_iff {w : Byte} :
    decodeMicro w = .error (.illegalMicroOp w) ↔ ¬ ∃ i, decodeMicro w = .ok i := by
  cases h : decodeMicro w with
  | ok i => simp
  | error r => simp [decodeMicro_eq_error h]

/-- R73: the legal words, on the numbers of the two fields. -/
theorem exists_decodeMicro {w : Byte} :
    (∃ i, decodeMicro w = .ok i) ↔
      ((opField w).toNat = 3 ∧ 1 ≤ (argField w).toNat ∧ (argField w).toNat ≤ 10) ∨
      ((opField w).toNat = 6 ∧ (argField w).toNat ≤ 10) ∨
      ((argField w).toNat = 0 ∧ (opField w).toNat ≠ 0 ∧ (opField w).toNat ≠ 3 ∧ (opField w).toNat ≠ 6) := by
  simp [decodeMicro_eq_ok, exists_or, exists_plainOp, legalExpandIndex, legalRoundIndex, BitVec.toNat_eq]

theorem decodeMicro_illegal_kinds (w : Byte) : decodeMicro w = .error (.illegalMicroOp w) ↔
    (opField w).toNat = 0 ∨
    ((opField w).toNat ≠ 0 ∧ (opField w).toNat ≠ 3 ∧ (opField w).toNat ≠ 6 ∧ (argField w).toNat ≠ 0) ∨
    ((opField w).toNat = 3 ∧ ((argField w).toNat = 0 ∨ 10 < (argField w).toNat)) ∨
    ((opField w).toNat = 6 ∧ 10 < (argField w).toNat) := by
  rw [decodeMicro_eq_illegal_iff, exists_decodeMicro]
  omega

theorem illegal_count :
    ((List.range 256).countP fun n =>
      decide (decodeMicro (BitVec.ofNat 8 n) = .error (.illegalMicroOp (BitVec.ofNat 8 n)))) = 222 := by
  decide +kernel

/-! ### The micro-programs (R79, R175, R176) -/

/-- A listing is read back from its words. -/
theorem decodeProgram_encode {l : List Instr} (h : ∀ i ∈ l, i.format = .microOp ∧ i.wf = true) :
    decodeProgram (l.map encode) = .ok l := by
  induction l with
  | nil => rfl
  | cons i l ih =>
    obtain ⟨⟨hf, hw⟩, hl⟩ := List.forall_mem_cons.1 h
    have rest : List.mapM decodeMicro (l.map encode) = .ok l := ih hl
    simp only [decodeProgram, List.map_cons, List.mapM_cons, decodeMicro_encode hf hw, rest]
    rfl

theorem programOf_legal (p : ProgSel) : ∀ i ∈ programOf p, i.format = .microOp ∧ i.wf = true := by
  cases p <;> decide

theorem encProgram_toList : encProgram.toList = (programOf .enc).map encode := by decide

theorem decProgram_toList : decProgram.toList = (programOf .dec).map encode := by decide

/-- No word of a listing is illegal. -/
theorem exists_decodeMicro_of_mem {p : ProgSel} {w : Byte} (h : w ∈ (programOf p).map encode) :
    ∃ i, decodeMicro w = .ok i := by
  obtain ⟨i, hi, rfl⟩ := List.mem_map.1 h
  obtain ⟨hf, hw⟩ := programOf_legal p i hi
  exact ⟨i, decodeMicro_encode hf hw⟩

/-- Settles O6: each ROM holds the words of its listing. -/
theorem microProgramsAreListings : Obligations.MicroProgramsAreListings := by
  unfold Obligations.MicroProgramsAreListings
  rw [encProgram_toList, decProgram_toList]
  exact ⟨decodeProgram_encode (programOf_legal .enc), decodeProgram_encode (programOf_legal .dec)⟩

/-! ### Fetching an illegal word -/

theorem fetched_eq_none_of_illegal {s : State} {w : Byte} {r : DecodeReject} (hw : fetchWord s = some w)
    (h : decodeMicro w = .error r) : fetched s = none := by
  simp only [fetched, hw, h]

/-- Settles O4: the kinds are what R73's three cases leave out, and a fetch that gives no micro-op raises the fault. -/
theorem illegalMicroWords : Obligations.IllegalMicroWords := by
  refine ⟨decodeMicro_illegal_kinds, illegal_count, fun s w rest hp hn hw hd => ?_, fun u => ⟨?_, ?_⟩⟩
  · rw [hn.step_eq]
    exact coreTurn_of_fetched_none hp (fetched_eq_none_of_illegal (s := { s with sched := rest }) hw hd)
  · exact exists_decodeMicro_of_mem (p := .enc) (encProgram_toList ▸ Vector.mem_toList_iff.2 (Vector.getElem_mem u.isLt))
  · exact exists_decodeMicro_of_mem (p := .dec) (decProgram_toList ▸ Vector.mem_toList_iff.2 (Vector.getElem_mem u.isLt))

end Sys2Proof.Machine
end

section
/-! A HOST write to CMD (R76, R77, R173): the command it runs, or the fault of a value that is no command. -/

namespace Sys2Proof.Machine

/-- R35, R75: the value of a HOST write to CMD, a byte, is taken as a command. -/
theorem step_writeCmd {s : State} {v : Byte} {rest : List Event}
    (hs : s.sched = .host (.writeCr 0 v.toNat) :: rest) : step s = commandWrite v { s with sched := rest } := by
  have hv : commandByte (.writeCr 0 v.toNat) = some v := by
    simp only [commandByte, v.isLt, if_true, BitVec.ofNat_toNat, BitVec.setWidth_eq]
  simp only [step, hs, hostTurn, hv]

theorem commandWrite_of_ok {v : Byte} {i : Instr} (h : decodeCommand v = .ok i) (s : State) :
    commandWrite v s = exec i s := by
  simp only [commandWrite, h]

/-- R194: a value that is no command is latched, and takes the fault. -/
theorem commandWrite_illegal {v : Byte} {s : State} (hp : s.phase ≠ .busy) (h1 : v ≠ 0x01) (h2 : v ≠ 0x02) :
    commandWrite v s = .next (raise .illegalCommand (latchCommand v s)) := by
  cases h : decodeCommand v with
  | ok i => rcases decodeCommand_ok h with ⟨rfl, -⟩ | ⟨rfl, -⟩ <;> contradiction
  | error r =>
    simp only [commandWrite, h, illegalCommandWrite, unlessBusy_of_not_busy hp, startCommand, if_neg h1, if_neg h2]

/-- Settles O34: the write is a command's, and the byte's decoding says which. -/
theorem stepRunsCommand : Obligations.StepRunsCommand := fun _ _ _ _ hs hi =>
  (step_writeCmd hs).trans (commandWrite_of_ok hi _)

/-- Settles O5: the next state is the fault entry with the value latched. -/
theorem illegalCommandCodes : Obligations.IllegalCommandCodes := by
  intro s v rest hp hs h1 h2
  refine ⟨_, (step_writeCmd hs).trans (commandWrite_illegal hp h1 h2), ?_⟩
  simp only [raise_fields, latchCommand_fields, true_and]
  apply byteAt_congr <;> simp

end Sys2Proof.Machine
end

section
/-! The GF(2^8) multiplier (R90 to R96): XTIME and the product as linear maps, GFMUL's two outcomes, and what a selector
outside the legal eight does to a column multiplication. -/

namespace Sys2Proof.Machine

/-! ### Linearity (R96) -/

theorem xtime_eq_shift (a : Byte) : xtime a = a <<< 1 ^^^ gated (a.getLsbD 7) 0x1B := by
  unfold xtime gated
  split
  · rfl
  · exact BitVec.xor_zero.symm

theorem gated_xor (b : Bool) (p q : Byte) : gated b (p ^^^ q) = gated b p ^^^ gated b q := by
  cases b <;> simp [gated]

theorem gated_bool_xor (b d : Bool) (p : Byte) : gated (b ^^ d) p = gated b p ^^^ gated d p := by
  cases b <;> cases d <;> simp [gated]

theorem xtime_xor (a b : Byte) : xtime (a ^^^ b) = xtime a ^^^ xtime b := by
  simp only [xtime_eq_shift, BitVec.getLsbD_xor, gated_bool_xor, BitVec.shiftLeft_xor_distrib]
  ac_rfl

/-- R96 (a): the product is linear in the byte. -/
theorem gfProduct_xor (a b : Byte) (c : BitVec 4) : gfProduct (a ^^^ b) c = gfProduct a c ^^^ gfProduct b c := by
  simp only [gfProduct, xtime_xor, gated_xor]
  ac_rfl

/-- R96 (b): the product is linear in the selector. -/
theorem gfProduct_selector_xor (a : Byte) (c d : BitVec 4) :
    gfProduct a (c ^^^ d) = gfProduct a c ^^^ gfProduct a d := by
  simp only [gfProduct, BitVec.getLsbD_xor, gated_bool_xor]
  ac_rfl

theorem fieldProduct_xor (a b d : Byte) : fieldProduct (a ^^^ b) d = fieldProduct a d ^^^ fieldProduct b d := by
  simp only [fieldProduct, xtime_xor, gfProduct_xor]
  ac_rfl

/-! ### The product for each legal selector (R93): a selector is the XOR of its bits -/

theorem gfProduct_zero (a : Byte) : gfProduct a 0 = 0 := by simp [gfProduct, gated]

theorem gfProduct_one (a : Byte) : gfProduct a 1 = a := by simp [gfProduct, gated]

theorem gfProduct_two (a : Byte) : gfProduct a 2 = xtime a := by simp [gfProduct, gated]

theorem gfProduct_four (a : Byte) : gfProduct a 4 = xtime (xtime a) := by simp [gfProduct, gated]

theorem gfProduct_eight (a : Byte) : gfProduct a 8 = xtime (xtime (xtime a)) := by simp [gfProduct, gated]

theorem gfProduct_three (a : Byte) : gfProduct a 3 = xtime a ^^^ a := by
  change gfProduct a (2 ^^^ 1) = _
  rw [gfProduct_selector_xor, gfProduct_two, gfProduct_one]

theorem gfProduct_nine (a : Byte) : gfProduct a 9 = xtime (xtime (xtime a)) ^^^ a := by
  change gfProduct a (8 ^^^ 1) = _
  rw [gfProduct_selector_xor, gfProduct_eight, gfProduct_one]

theorem gfProduct_eleven (a : Byte) : gfProduct a 11 = xtime (xtime (xtime a)) ^^^ xtime a ^^^ a := by
  change gfProduct a (8 ^^^ 2 ^^^ 1) = _
  rw [gfProduct_selector_xor, gfProduct_selector_xor, gfProduct_eight, gfProduct_two, gfProduct_one]

theorem gfProduct_thirteen (a : Byte) : gfProduct a 13 = xtime (xtime (xtime a)) ^^^ xtime (xtime a) ^^^ a := by
  change gfProduct a (8 ^^^ 4 ^^^ 1) = _
  rw [gfProduct_selector_xor, gfProduct_selector_xor, gfProduct_eight, gfProduct_four, gfProduct_one]

theorem gfProduct_fourteen (a : Byte) :
    gfProduct a 14 = xtime (xtime (xtime a)) ^^^ xtime (xtime a) ^^^ xtime a := by
  change gfProduct a (8 ^^^ 4 ^^^ 2) = _
  rw [gfProduct_selector_xor, gfProduct_selector_xor, gfProduct_eight, gfProduct_four, gfProduct_two]

/-! ### Permutations (R90, R96) -/

theorem getLsbD_gated (b : Bool) (p : Byte) (i : Nat) : (gated b p).getLsbD i = (b && p.getLsbD i) := by
  cases b <;> simp [gated]

/-- A byte is the XOR of its bits, each at its place. -/
theorem byte_eq_xor_bits (a : Byte) :
    a = gated (a.getLsbD 0) 0x01 ^^^ gated (a.getLsbD 1) 0x02 ^^^ gated (a.getLsbD 2) 0x04 ^^^ gated (a.getLsbD 3) 0x08 ^^^
      gated (a.getLsbD 4) 0x10 ^^^ gated (a.getLsbD 5) 0x20 ^^^ gated (a.getLsbD 6) 0x40 ^^^ gated (a.getLsbD 7) 0x80 := by
  apply BitVec.eq_of_getLsbD_eq
  intro i hi
  simp only [BitVec.getLsbD_xor, getLsbD_gated]
  interval_cases i <;> simp

/-- The bytes of one bit, the basis of the linear maps on bytes. -/
def oneBitBytes : List Byte := [0x01, 0x02, 0x04, 0x08, 0x10, 0x20, 0x40, 0x80]

/-- A linear map that keeps the eight bytes of one bit keeps every byte. -/
theorem eq_self_of_linear {f : Byte → Byte} (hf : ∀ a b, f (a ^^^ b) = f a ^^^ f b)
    (hb : ∀ p ∈ oneBitBytes, f p = p) (a : Byte) : f a = a := by
  have h0 : f 0 = 0 := by simpa using hf 0 0
  have hg : ∀ p ∈ oneBitBytes, ∀ b, f (gated b p) = gated b p := fun p hp b =>
    match b with
    | true => hb p hp
    | false => h0
  rw [byte_eq_xor_bits a]
  simp (disch := decide) only [hf, hg]

/-- The inverse, in the field under 0x11B, of each legal selector but 0. -/
def selectorInverse (c : BitVec 4) : Byte :=
  match c.toNat with
  | 1 => 0x01
  | 2 => 0x8D
  | 3 => 0xF6
  | 9 => 0x4F
  | 11 => 0xC0
  | 13 => 0xE1
  | 14 => 0xE5
  | _ => 0x00

theorem fieldProduct_gfProduct_inverse {c : BitVec 4} (hc : legalConstant c = true) (h0 : c ≠ 0) (a : Byte) :
    fieldProduct (gfProduct a c) (selectorInverse c) = a := by
  have basis : ∀ c : BitVec 4, legalConstant c = true → c ≠ 0 →
      ∀ p ∈ oneBitBytes, fieldProduct (gfProduct p c) (selectorInverse c) = p := by decide
  exact eq_self_of_linear (f := fun a => fieldProduct (gfProduct a c) (selectorInverse c))
    (fun a b => by simp only [gfProduct_xor, fieldProduct_xor]) (basis c hc h0) a

/-- R96 (c). -/
theorem gfProduct_bijective {c : BitVec 4} (hc : legalConstant c = true) (h0 : c ≠ 0) :
    Function.Bijective fun a => gfProduct a c :=
  Finite.injective_iff_bijective.1 (Function.LeftInverse.injective (g := fun b => fieldProduct b (selectorInverse c))
    (fieldProduct_gfProduct_inverse hc h0))

theorem xtime_bijective : Function.Bijective xtime :=
  funext gfProduct_two ▸ gfProduct_bijective (c := 2) (by decide) (by decide)

/-! ### GFMUL's outcomes (R92, R94) -/

theorem gfmul_of_legal {c : BitVec 4} (h : legalConstant c = true) (a : Byte) : gfmul a c = .ok (gfProduct a c) :=
  if_pos h

theorem gfmul_of_illegal {c : BitVec 4} (h : legalConstant c = false) (a : Byte) :
    gfmul a c = .error .invariantViolation := by
  simp [gfmul, h]

theorem legalConstant_of_gfmul_ok {a x : Byte} {c : BitVec 4} (h : gfmul a c = .ok x) : legalConstant c = true := by
  by_contra hc
  simp [gfmul_of_illegal (Bool.eq_false_of_not_eq_true hc)] at h

theorem gfmul_error {a : Byte} {c : BitVec 4} {f : CoreFault} (h : gfmul a c = .error f) : f = .invariantViolation := by
  cases hc : legalConstant c with
  | true => simp [gfmul_of_legal hc] at h
  | false => simpa [gfmul_of_illegal hc] using h.symm

theorem gfProduct_byte_zero (c : BitVec 4) : gfProduct 0 c = 0 := by revert c; decide

theorem gfProduct_byte_one (c : BitVec 4) : gfProduct 1 c = c.setWidth 8 := by revert c; decide

/-! ### A matrix that holds an illegal selector (R94, R120) -/

theorem bind_eq_ok {α β : Type} {x : Except CoreFault α} {f : α → Except CoreFault β} {b : β} (h : x >>= f = .ok b) :
    ∃ v, x = .ok v ∧ f v = .ok b := by
  cases x with
  | ok v => exact ⟨v, rfl, h⟩
  | error e => cases h

theorem bind_eq_error {α β : Type} {x : Except CoreFault α} {f : α → Except CoreFault β} {e : CoreFault}
    (h : x >>= f = .error e) : x = .error e ∨ ∃ v, f v = .error e := by
  cases x with
  | ok v => exact .inr ⟨v, h⟩
  | error e' => exact .inl (Except.error.inj h ▸ rfl)

/-- Four computations in turn, as a row, a column and a state are made of their parts. -/
def fourParts {α β : Type} (x : Fin 4 → Except CoreFault α) (f : α → α → α → α → β) : Except CoreFault β := do
  let v0 ← x 0
  let v1 ← x 1
  let v2 ← x 2
  let v3 ← x 3
  return f v0 v1 v2 v3

theorem fourParts_ok {α β : Type} {x : Fin 4 → Except CoreFault α} {f : α → α → α → α → β} {b : β}
    (h : fourParts x f = .ok b) : ∀ i, ∃ v, x i = .ok v := by
  obtain ⟨v0, h0, h⟩ := bind_eq_ok h
  obtain ⟨v1, h1, h⟩ := bind_eq_ok h
  obtain ⟨v2, h2, h⟩ := bind_eq_ok h
  obtain ⟨v3, h3, -⟩ := bind_eq_ok h
  exact fun | 0 => ⟨v0, h0⟩ | 1 => ⟨v1, h1⟩ | 2 => ⟨v2, h2⟩ | 3 => ⟨v3, h3⟩

theorem fourParts_error {α β : Type} {x : Fin 4 → Except CoreFault α} {f : α → α → α → α → β} {e : CoreFault}
    (h : fourParts x f = .error e) : ∃ i, x i = .error e := by
  obtain h0 | ⟨_, h⟩ := bind_eq_error h
  · exact ⟨0, h0⟩
  obtain h1 | ⟨_, h⟩ := bind_eq_error h
  · exact ⟨1, h1⟩
  obtain h2 | ⟨_, h⟩ := bind_eq_error h
  · exact ⟨2, h2⟩
  obtain h3 | ⟨_, h⟩ := bind_eq_error h
  · exact ⟨3, h3⟩
  · cases h

theorem dotProduct_eq (row : Vector (BitVec 4) 4) (a : Word) :
    dotProduct row a = fourParts (fun k => gfmul a[k] row[k]) fun p0 p1 p2 p3 => p0 ^^^ p1 ^^^ p2 ^^^ p3 := rfl

theorem mixColumn_eq (M : MixMatrix) (a : Word) : mixColumn M a = fourParts (fun i => dotProduct M[i] a) mkWord := rfl

theorem mixWith_eq (M : MixMatrix) (m : Mat) :
    mixWith M m = fourParts (fun c => mixColumn M (Mat.col m c)) fun c0 c1 c2 c3 => Mat.ofCols #v[c0, c1, c2, c3] := rfl

theorem legalConstant_of_mixWith_ok {M : MixMatrix} {m n : Mat} (h : mixWith M m = .ok n) (i k : Fin 4) :
    legalConstant (M[i])[k] = true := by
  obtain ⟨_, hcol⟩ := fourParts_ok (mixWith_eq M m ▸ h) 0
  obtain ⟨_, hdot⟩ := fourParts_ok (mixColumn_eq M _ ▸ hcol) i
  obtain ⟨_, hmul⟩ := fourParts_ok (dotProduct_eq _ _ ▸ hdot) k
  exact legalConstant_of_gfmul_ok hmul

theorem mixWith_error {M : MixMatrix} {m : Mat} {f : CoreFault} (h : mixWith M m = .error f) :
    f = .invariantViolation := by
  obtain ⟨_, hcol⟩ := fourParts_error (mixWith_eq M m ▸ h)
  obtain ⟨_, hdot⟩ := fourParts_error (mixColumn_eq M _ ▸ hcol)
  obtain ⟨_, hmul⟩ := fourParts_error (dotProduct_eq _ _ ▸ hdot)
  exact gfmul_error hmul

theorem mixWith_of_illegal {M : MixMatrix} {i k : Fin 4} (h : legalConstant (M[i])[k] = false) (m : Mat) :
    mixWith M m = .error .invariantViolation := by
  cases hm : mixWith M m with
  | ok n => exact absurd (legalConstant_of_mixWith_ok hm i k) (by rw [h]; decide)
  | error f => rw [mixWith_error hm]

theorem legalConstant_of_mem_others {c : BitVec 4} (h : c.toNat ∈ [4, 5, 6, 7, 8, 10, 12, 15]) :
    legalConstant c = false := by revert c; decide

/-! ### The obligations -/

/-- Settles O9: a matrix product that is a state has read legal selectors only, and its one fault is GFMUL's. -/
theorem unsupportedConstantFails : Obligations.UnsupportedConstantFails :=
  ⟨fun a _ h => gfmul_of_illegal (legalConstant_of_mem_others h) a, fun _ m _ _ h => mixWith_of_illegal h m,
    fun _ _ _ => ⟨rfl, rfl, rfl⟩, fun i k => ⟨mixMatrix_legal i k, invMixMatrix_legal i k⟩⟩

/-- Settles O10: both linearities, the inverse of each selector, and, in the row of INVMIX times MIX, doublings of `a` that
cancel in pairs (no product there reaches the degree of the field's polynomial). -/
theorem gfmulLaws : Obligations.GfmulLaws := by
  refine ⟨fun a b c h => ?_, fun a => ⟨?_, ?_, ?_, ?_⟩, fun c h h0 => gfProduct_bijective h h0, fun a => ?_,
    fun a c h => gfmul_of_legal h a⟩
  · exact ⟨_, _, gfmul_of_legal h a, gfmul_of_legal h b, by rw [gfmul_of_legal h, gfProduct_xor]⟩
  · exact gfProduct_selector_xor a 2 1
  · exact gfProduct_selector_xor a 9 2
  · exact (gfProduct_selector_xor a 13 14).symm
  · exact (gfProduct_selector_xor a 9 11).symm
  · simp only [gfProduct_one, gfProduct_two, gfProduct_three, gfProduct_nine, gfProduct_eleven, gfProduct_thirteen,
      gfProduct_fourteen, xtime_xor]
    refine ⟨?_, ?_, ?_, ?_⟩ <;> grind

/-- Settles O8: the product for each selector, and GFMUL answers it for a legal one. -/
theorem gfmulPerConstant : Obligations.GfmulPerConstant := by
  refine ⟨fun a => ?_, fun c h => ?_⟩
  · simp (disch := decide) only [gfmul_of_legal, gfProduct_zero, gfProduct_one, gfProduct_two, gfProduct_three,
      gfProduct_nine, gfProduct_eleven, gfProduct_thirteen, gfProduct_fourteen, and_self]
  · rw [gfmul_of_legal h, gfmul_of_legal h, gfProduct_byte_zero, gfProduct_byte_one]
    exact ⟨rfl, rfl⟩

theorem xtime_eq_double (a : Byte) : xtime a =
    if a.toNat < 0x80 then BitVec.ofNat 8 (2 * a.toNat) else BitVec.ofNat 8 (2 * a.toNat) ^^^ 0x1B := by
  have hs : a <<< 1 = BitVec.ofNat 8 (2 * a.toNat) := by
    apply BitVec.eq_of_toNat_eq
    simp [Nat.shiftLeft_eq, Nat.mul_comm]
  have hb : a.getLsbD 7 = decide (0x80 ≤ a.toNat) := BitVec.msb_eq_decide a
  rw [xtime, hs, hb]
  simp only [decide_eq_true_eq, ← Nat.not_lt, ite_not]

/-- Settles O7: doubling on numbers, and the selector 2 has an inverse. -/
theorem xtimeDoubles : Obligations.XtimeDoubles :=
  ⟨xtime_eq_double, by decide, by decide, by decide, by decide, by decide, by decide, xtime_bijective⟩

end Sys2Proof.Machine
end

section
/-! The S-boxes (R100 to R103) and the two substitutions on the state (R104 to R107): one table read at every position. -/

namespace Sys2Proof.Machine

/-! ### FSBOX and ISBOX are mutual inverses (R100): the one fact that is read off the entries, and what follows from it -/

theorem isbox_fsbox : ∀ x : Byte, isbox (fsbox x) = x := by decide +kernel

theorem fsbox_bijective : Function.Bijective fsbox :=
  Finite.injective_iff_bijective.1 (Function.LeftInverse.injective isbox_fsbox)

/-- R100: a left inverse of a permutation is its right inverse. -/
theorem fsbox_isbox : ∀ y : Byte, fsbox (isbox y) = y :=
  Function.LeftInverse.rightInverse_of_surjective isbox_fsbox fsbox_bijective.surjective

theorem isbox_bijective : Function.Bijective isbox :=
  ⟨Function.LeftInverse.injective fsbox_isbox, Function.LeftInverse.surjective isbox_fsbox⟩

/-! ### The construction of FSBOX (R103), read backwards: the affine map undone on an entry gives the inverse of its index -/

def sboxAffineInverse (y : Byte) : Byte :=
  (y ^^^ 0x63).rotateLeft 1 ^^^ (y ^^^ 0x63).rotateLeft 3 ^^^ (y ^^^ 0x63).rotateLeft 6

theorem sboxAffine_sboxAffineInverse : ∀ y : Byte, sboxAffine (sboxAffineInverse y) = y := by decide +kernel

/-- `inv(x)` of R103. -/
def sboxFieldInverse (x : Byte) : Byte := sboxAffineInverse (fsbox x)

theorem sboxFieldInverse_zero : sboxFieldInverse 0x00 = 0x00 := by decide +kernel

theorem fieldProduct_sboxFieldInverse : ∀ x : Byte, x ≠ 0x00 → fieldProduct x (sboxFieldInverse x) = 0x01 := by
  decide +kernel

theorem fsbox_eq_sboxAffine (x : Byte) : fsbox x = sboxAffine (sboxFieldInverse x) :=
  (sboxAffine_sboxAffineInverse (fsbox x)).symm

/-! ### No fixed point (R104, R105) -/

theorem fsbox_ne_self : ∀ x : Byte, fsbox x ≠ x := by decide +kernel

/-- A fixed point of ISBOX would be one of FSBOX. -/
theorem isbox_ne_self (x : Byte) : isbox x ≠ x := fun h =>
  fsbox_ne_self x ((congrArg fsbox h).symm.trans (fsbox_isbox x))

/-! ### A byte map at every position of the state (R104, R105) -/

/-- Every byte of the state through `g`. -/
def substitute (g : Byte → Byte) (m : Mat) : Mat := Mat.ofFn fun r c => g (Mat.at m r c)

theorem subBytes_eq_substitute : subBytes = substitute fsbox := rfl

theorem invSubBytes_eq_substitute : invSubBytes = substitute isbox := rfl

@[simp] theorem substitute_at (g : Byte → Byte) (m : Mat) (r c : Fin 4) :
    Mat.at (substitute g m) r c = g (Mat.at m r c) := Mat.at_ofFn _ r c

/-- R106, lane by lane. -/
theorem substitute_substitute {g h : Byte → Byte} (hg : ∀ x, g (h x) = x) (m : Mat) :
    substitute g (substitute h m) = m :=
  Mat.ext_at fun r c => by rw [substitute_at, substitute_at, hg]

/-- R107: the same map at every position, so a move of bytes may come before or after. -/
theorem substitute_rearranged (g : Byte → Byte) (f : Fin 4 → Fin 4 → Fin 4 × Fin 4) (m : Mat) :
    substitute g (Mat.ofFn fun r c => Mat.at m (f r c).1 (f r c).2) =
      Mat.ofFn fun r c => Mat.at (substitute g m) (f r c).1 (f r c).2 :=
  Mat.ext_at fun r c => by simp only [substitute_at, Mat.at_ofFn]

theorem substitute_shiftRows (g : Byte → Byte) (m : Mat) : substitute g (shiftRows m) = shiftRows (substitute g m) :=
  substitute_rearranged g (fun r c => (r, c + r)) m

theorem substitute_invShiftRows (g : Byte → Byte) (m : Mat) :
    substitute g (invShiftRows m) = invShiftRows (substitute g m) :=
  substitute_rearranged g (fun r c => (r, c - r)) m

/-! ### The obligations -/

/-- Settles O11: FSBOX is compared with its construction and with ISBOX entry by entry; the rest follows for permutations
of a finite set. -/
theorem sboxesAreInverse : Obligations.SboxesAreInverse :=
  ⟨fun x => ⟨sboxFieldInverse x, fun h => h ▸ sboxFieldInverse_zero, fieldProduct_sboxFieldInverse x,
      fsbox_eq_sboxAffine x⟩,
    isbox_fsbox, fsbox_isbox, fsbox_bijective, isbox_bijective⟩

/-- Settles O12: both transforms are one byte map at every position, and the two maps are inverse to each other. -/
theorem subBytesLaws : Obligations.SubBytesLaws := by
  unfold Obligations.SubBytesLaws
  rw [subBytes_eq_substitute, invSubBytes_eq_substitute]
  exact fun m => ⟨substitute_substitute isbox_fsbox m, substitute_substitute fsbox_isbox m,
    fun f => ⟨substitute_rearranged fsbox f m, substitute_rearranged isbox f m⟩,
    (substitute_shiftRows fsbox m).symm, substitute_invShiftRows isbox m⟩

/-- Settles O23: each micro-op writes the substituted state, and neither table has a fixed point. -/
theorem subBytesSubstitutes : Obligations.SubBytesSubstitutes := fun s =>
  ⟨⟨_, Effect.subbytes.exec_eq, substitute_at fsbox s.S, writeS_frame _ _ s⟩,
    ⟨_, Effect.invsubbytes.exec_eq, substitute_at isbox s.S, writeS_frame _ _ s⟩,
    fun x => ⟨fsbox_ne_self x, isbox_ne_self x⟩⟩

end Sys2Proof.Machine
end

section
/-! SHIFTROWS and INVSHIFTROWS (R110 to R113): each rotates every row by an amount of its own, and such rotations compose by
adding the amounts mod 4. -/

namespace Sys2Proof.Machine

/-! ### Rotation of the rows -/

/-- Row `r` rotated left by `k r`. -/
def rotateRows (k : Fin 4 → Fin 4) (m : Mat) : Mat := Mat.ofFn fun r c => Mat.at m r (c + k r)

@[simp] theorem rotateRows_at (k : Fin 4 → Fin 4) (m : Mat) (r c : Fin 4) :
    Mat.at (rotateRows k m) r c = Mat.at m r (c + k r) := Mat.at_ofFn _ r c

theorem shiftRows_eq_rotateRows : shiftRows = rotateRows id := rfl

/-- R111: a rotation right is the rotation left by the negated amount. -/
theorem invShiftRows_eq_rotateRows : invShiftRows = rotateRows (-id) :=
  funext fun m => Mat.ext_at fun r c => by
    simp only [invShiftRows, rotateRows_at, Mat.at_ofFn, Pi.neg_apply, id_eq, sub_eq_add_neg]

theorem rotateRows_zero (m : Mat) : rotateRows 0 m = m :=
  Mat.ext_at fun r c => by rw [rotateRows_at, Pi.zero_apply, add_zero]

theorem rotateRows_rotateRows (k l : Fin 4 → Fin 4) (m : Mat) :
    rotateRows k (rotateRows l m) = rotateRows (k + l) m :=
  Mat.ext_at fun r c => by simp only [rotateRows_at, Pi.add_apply, add_assoc]

/-- R112: amounts that cancel. -/
theorem rotateRows_cancel {k l : Fin 4 → Fin 4} (h : k + l = 0) (m : Mat) : rotateRows k (rotateRows l m) = m := by
  rw [rotateRows_rotateRows, h, rotateRows_zero]

/-- R113: four times any amount is no rotation. -/
theorem rotateRows_period_four (k : Fin 4 → Fin 4) (m : Mat) :
    rotateRows k (rotateRows k (rotateRows k (rotateRows k m))) = m := by
  have four : ∀ x : Fin 4, x + x + (x + x) = 0 := by decide
  rw [rotateRows_rotateRows k k m, rotateRows_rotateRows k k]
  exact rotateRows_cancel (funext fun r => four (k r)) m

/-- R113: a rotation permutes the columns of a row. -/
theorem rotateRows_permutes_row (k : Fin 4 → Fin 4) (m : Mat) (r : Fin 4) :
    ∃ p : Equiv.Perm (Fin 4), ∀ c, Mat.at (rotateRows k m) r c = Mat.at m r (p c) :=
  ⟨Equiv.addRight (k r), rotateRows_at k m r⟩

/-! ### The column a byte comes from, on numbers -/

/-- R110. -/
theorem shiftRows_at_of_val {r c d : Fin 4} (h : d.val = (c.val + r.val) % 4) (m : Mat) :
    Mat.at (shiftRows m) r c = Mat.at m r d := by
  have hd : d = c + r := Fin.ext (h.trans (Fin.val_add c r).symm)
  rw [shiftRows, Mat.at_ofFn, hd]

/-- R111. -/
theorem invShiftRows_at_of_val {r c d : Fin 4} (h : d.val = (c.val + 4 - r.val) % 4) (m : Mat) :
    Mat.at (invShiftRows m) r c = Mat.at m r d := by
  have hd : d = c - r := Fin.ext (by rw [h, Fin.val_sub]; omega)
  rw [invShiftRows, Mat.at_ofFn, hd]

/-! ### The obligations -/

/-- Settles O13: both are rotations of the rows, by amounts that cancel each other. -/
theorem shiftRowsLaws : Obligations.ShiftRowsLaws := by
  unfold Obligations.ShiftRowsLaws
  rw [shiftRows_eq_rotateRows, invShiftRows_eq_rotateRows]
  exact fun m => ⟨rotateRows_cancel (neg_add_cancel id) m, rotateRows_cancel (add_neg_cancel id) m,
    fun r => ⟨rotateRows_permutes_row id m r, rotateRows_permutes_row (-id) m r⟩,
    rotateRows_period_four id m, rotateRows_period_four (-id) m⟩

/-- Settles O24: each micro-op writes the rotated state. -/
theorem shiftRowsRotates : Obligations.ShiftRowsRotates := fun s =>
  ⟨⟨_, Effect.shiftrows.exec_eq, fun _ _ _ h => shiftRows_at_of_val h s.S, writeS_frame _ _ s⟩,
    ⟨_, Effect.invshiftrows.exec_eq, fun _ _ _ h => invShiftRows_at_of_val h s.S, writeS_frame _ _ s⟩⟩

end Sys2Proof.Machine
end

section
/-! MIXCOLUMNS and INVMIXCOLUMNS (R120 to R124): the product of a selector matrix and the state is linear in every
byte and commutes with doubling, so the product of two such matrices is known from what it does to the byte 0x01. -/

namespace Sys2Proof.Machine

/-! ### A selector matrix times the state (R120, R122) -/

/-- The XOR of the four products of a column's bytes with a row of selectors. -/
def matProduct (M : MixMatrix) (m : Mat) : Mat := Mat.ofFn fun i c =>
  gfProduct (Mat.at m 0 c) (M[i])[0] ^^^ gfProduct (Mat.at m 1 c) (M[i])[1] ^^^
    gfProduct (Mat.at m 2 c) (M[i])[2] ^^^ gfProduct (Mat.at m 3 c) (M[i])[3]

theorem matProduct_at (M : MixMatrix) (m : Mat) (i c : Fin 4) : Mat.at (matProduct M m) i c =
    gfProduct (Mat.at m 0 c) (M[i])[0] ^^^ gfProduct (Mat.at m 1 c) (M[i])[1] ^^^
      gfProduct (Mat.at m 2 c) (M[i])[2] ^^^ gfProduct (Mat.at m 3 c) (M[i])[3] := Mat.at_ofFn _ i c

theorem mixColumns_eq_matProduct (m : Mat) : mixColumns m = .ok (matProduct mixMatrix m) := mixWith_ok mixMatrix_legal m

theorem invMixColumns_eq_matProduct (m : Mat) : invMixColumns m = .ok (matProduct invMixMatrix m) :=
  mixWith_ok invMixMatrix_legal m

theorem mixMatrix_eq : mixMatrix = #v[#v[2, 3, 1, 1], #v[1, 2, 3, 1], #v[1, 1, 2, 3], #v[3, 1, 1, 2]] := by decide

theorem invMixMatrix_eq :
    invMixMatrix = #v[#v[14, 11, 13, 9], #v[9, 14, 11, 13], #v[13, 9, 14, 11], #v[11, 13, 9, 14]] := by decide

/-- R124. -/
theorem matProduct_xor (M : MixMatrix) (m n : Mat) :
    matProduct M (Mat.ofFn fun r c => Mat.at m r c ^^^ Mat.at n r c) =
      Mat.ofFn fun r c => Mat.at (matProduct M m) r c ^^^ Mat.at (matProduct M n) r c :=
  Mat.ext_at fun r c => by
    simp only [matProduct_at, Mat.at_ofFn, gfProduct_xor]
    ac_rfl

/-! ### The product of two selector matrices (R123) -/

theorem gated_xtime (b : Bool) (p : Byte) : gated b (xtime p) = xtime (gated b p) := by
  cases b with
  | true => rfl
  | false => exact (by decide : (0 : Byte) = xtime 0)

theorem gfProduct_xtime (a : Byte) (c : BitVec 4) : gfProduct (xtime a) c = xtime (gfProduct a c) := by
  simp only [gfProduct, gated_xtime, xtime_xor]

/-- What a byte of row `j` contributes to row `i` when the state is multiplied by `M` and then by `N`. -/
def productEntry (N M : MixMatrix) (i j : Fin 4) (a : Byte) : Byte :=
  gfProduct (gfProduct a (M[0])[j]) (N[i])[0] ^^^ gfProduct (gfProduct a (M[1])[j]) (N[i])[1] ^^^
    gfProduct (gfProduct a (M[2])[j]) (N[i])[2] ^^^ gfProduct (gfProduct a (M[3])[j]) (N[i])[3]

theorem matProduct_matProduct_at (N M : MixMatrix) (m : Mat) (i c : Fin 4) :
    Mat.at (matProduct N (matProduct M m)) i c =
      productEntry N M i 0 (Mat.at m 0 c) ^^^ productEntry N M i 1 (Mat.at m 1 c) ^^^
        productEntry N M i 2 (Mat.at m 2 c) ^^^ productEntry N M i 3 (Mat.at m 3 c) := by
  simp only [matProduct_at, gfProduct_xor, productEntry]
  ac_rfl

theorem productEntry_xor (N M : MixMatrix) (i j : Fin 4) (a b : Byte) :
    productEntry N M i j (a ^^^ b) = productEntry N M i j a ^^^ productEntry N M i j b := by
  simp only [productEntry, gfProduct_xor]
  ac_rfl

theorem productEntry_xtime (N M : MixMatrix) (i j : Fin 4) (a : Byte) :
    productEntry N M i j (xtime a) = xtime (productEntry N M i j a) := by
  simp only [productEntry, gfProduct_xtime, xtime_xor]

theorem oneBitBytes_eq_iterate_xtime : oneBitBytes = List.iterate xtime 0x01 8 := by decide

/-- Two linear maps that commute with doubling and agree on 0x01 agree on every byte: on its doublings, the bytes of one
bit, and so everywhere, for their sum with the identity is the identity. -/
theorem eq_of_linear_of_commute_xtime {f g : Byte → Byte} (hf : ∀ a b, f (a ^^^ b) = f a ^^^ f b)
    (hg : ∀ a b, g (a ^^^ b) = g a ^^^ g b) (hfx : Function.Commute f xtime) (hgx : Function.Commute g xtime)
    (h1 : f 0x01 = g 0x01) (a : Byte) : f a = g a := by
  have basis : ∀ p ∈ oneBitBytes, f p = g p := by
    rw [oneBitBytes_eq_iterate_xtime]
    intro p hp
    obtain ⟨n, -, rfl⟩ := List.mem_iterate.1 hp
    rw [hfx.iterate_right n, hgx.iterate_right n, h1]
  have hsum : f a ^^^ g a ^^^ a = a := eq_self_of_linear (f := fun a => f a ^^^ g a ^^^ a)
    (fun a b => by simp only [hf, hg]; ac_rfl) (fun p hp => by simp [basis p hp]) a
  exact BitVec.xor_eq_zero_iff.1 ((BitVec.xor_left_inj a).1 (hsum.trans BitVec.zero_xor.symm))

/-- If the product of two matrices has the entries of the identity, as the byte 0x01 shows them, the one matrix undoes
the other. -/
theorem matProduct_matProduct_cancel {N M : MixMatrix}
    (h : ∀ i j : Fin 4, productEntry N M i j 0x01 = gated (i = j) 0x01) (m : Mat) :
    matProduct N (matProduct M m) = m := by
  have entry : ∀ (i j : Fin 4) (a : Byte), productEntry N M i j a = gated (i = j) a := fun i j =>
    eq_of_linear_of_commute_xtime (productEntry_xor N M i j) (gated_xor _) (productEntry_xtime N M i j)
      (gated_xtime _) (h i j)
  apply Mat.ext_at
  intro i c
  rw [matProduct_matProduct_at, entry, entry, entry, entry]
  fin_cases i <;> simp [gated]

theorem invMixMatrix_mixMatrix_entry :
    ∀ i j : Fin 4, productEntry invMixMatrix mixMatrix i j 0x01 = gated (i = j) 0x01 := by
  rw [mixMatrix_eq, invMixMatrix_eq]
  decide

theorem mixMatrix_invMixMatrix_entry :
    ∀ i j : Fin 4, productEntry mixMatrix invMixMatrix i j 0x01 = gated (i = j) 0x01 := by
  rw [mixMatrix_eq, invMixMatrix_eq]
  decide

/-! ### The obligations -/

/-- Settles O14: both transforms are products with a matrix, linear, and the two matrices undo each other. -/
theorem mixColumnsLaws : Obligations.MixColumnsLaws := by
  unfold Obligations.MixColumnsLaws
  simp only [mixColumns_eq_matProduct, invMixColumns_eq_matProduct]
  refine ⟨fun m => ⟨_, _, rfl, ?_, rfl, ?_⟩, fun m n => ⟨_, _, _, _, rfl, rfl, rfl, rfl, ?_, ?_⟩⟩
  · rw [matProduct_matProduct_cancel invMixMatrix_mixMatrix_entry]
  · rw [matProduct_matProduct_cancel mixMatrix_invMixMatrix_entry]
  · rw [matProduct_xor]
  · rw [matProduct_xor]

/-- Settles O25: each micro-op writes the matrix product, whose rows are the written-out ones. -/
theorem mixColumnsMultiplies : Obligations.MixColumnsMultiplies := by
  -- `gfProduct_one` with the selector as `simp` spells it.
  have one : ∀ a : Byte, gfProduct a 1#4 = a := gfProduct_one
  intro s
  refine ⟨⟨_, (Effect.mixcolumns _ (mixColumns_eq_matProduct s.S)).exec_eq, fun c => ?_, writeS_frame _ _ s⟩,
    ⟨_, (Effect.invmixcolumns _ (invMixColumns_eq_matProduct s.S)).exec_eq, fun c => ?_, writeS_frame _ _ s⟩⟩
  · simp [matProduct_at, mixMatrix_eq, one]
  · simp [matProduct_at, invMixMatrix_eq]

end Sys2Proof.Machine
end

section
/-! The key schedule (R130 to R139): ROTWORD and SUBWORD on four bytes, the frames of KEYLOAD, RCONGEN and KEXPR, and a
round key of the expanded key as what KEXPR computes from the round key before it. -/

namespace Sys2Proof.Machine

/-! ### ROTWORD and SUBWORD (R135, R136) -/

theorem eq_mkWord (w : Word) : w = mkWord w[0] w[1] w[2] w[3] := by
  ext i hi
  interval_cases i <;> rfl

theorem rotword_mkWord (b0 b1 b2 b3 : Byte) : rotword (mkWord b0 b1 b2 b3) = mkWord b1 b2 b3 b0 := rfl

theorem subword_mkWord (b0 b1 b2 b3 : Byte) :
    subword (mkWord b0 b1 b2 b3) = mkWord (fsbox b0) (fsbox b1) (fsbox b2) (fsbox b3) := rfl

/-- R135: a rotation of four bytes by one position, four times. -/
theorem rotword_period_four (w : Word) : rotword (rotword (rotword (rotword w))) = w := by
  rw [eq_mkWord w]
  simp only [rotword_mkWord]

/-- Settles O19: both units on the four bytes of a word. -/
theorem rotwordSubword : Obligations.RotwordSubword :=
  ⟨fun b0 b1 b2 b3 => ⟨rotword_mkWord b0 b1 b2 b3, subword_mkWord b0 b1 b2 b3⟩, rotword_period_four,
    rotword_mkWord _ _ _ _, by decide, by decide⟩

/-! ### KEYLOAD (R131, R132) -/

/-- R131: byte `k` of the zero-extended key is byte `k` of the buffer, or zero past the key. -/
theorem zext16_collect {rd : Nat → Option Byte} {n : Nat} {key : List Byte} (h : collect rd 0 n = some key)
    (k : Fin 16) : if k.val < n then rd k.val = some (zext16 key)[k] else (zext16 key)[k] = 0 := by
  obtain ⟨len, get⟩ := collect_some h
  rw [Fin.getElem_fin, zext16_get]
  split
  · next hk => simpa [len, hk] using get k.val hk
  · next hk => exact List.getD_eq_default _ _ (by omega)

/-- Settles O16: K is the zero-extended key, W[0..3] are its words. -/
theorem keyloadLoadsKey : Obligations.KeyloadLoadsKey := by
  intro s hlen hbytes
  obtain ⟨key, hkey⟩ := Option.isSome_iff_exists.1 <|
    collect_isSome_iff (a := 0).2 fun i hi => by simpa using hbytes i hi
  refine ⟨_, exec_keyload hlen hkey, fun k => ?_, fun i j hi => ?_, fun i hi => ?_, fun i => ?_, ?_, ?_, ?_⟩
  · simpa using zext16_collect hkey k
  · simp [seedWords_get, hi]
  · simp [seedWords_get, hi]
  · simp [seedWords_held_get]
  · apply Held.ext <;> simp
  · apply State.ext <;> simp
  · exact byteAt_congr (by simp) (by simp) (by simp) (by simp) (by simp)

/-! ### RCONGEN (R133, R134) -/

/-- What RCONGEN writes. -/
def roundConstants : Vector Byte 10 := Vector.ofFn fun i => rconByte i.val

theorem roundConstants_get (i : Nat) (h : i < 10) : roundConstants[i] = rconByte i := by simp [roundConstants]

theorem roundConstants_eq : roundConstants = #v[0x01, 0x02, 0x04, 0x08, 0x10, 0x20, 0x40, 0x80, 0x1B, 0x36] := by
  decide

theorem exec_rcongen (s : State) : exec .rcongen s = .next (advance (writeRC roundConstants s)) := rfl

/-- Settles O17: the constants are doublings of 0x01 by definition, and their values are computed. -/
theorem rcongenWritesConstants : Obligations.RcongenWritesConstants := by
  intro s
  refine ⟨_, exec_rcongen s, ?_, fun i => ?_, ?_, ?_, ?_, ?_⟩
  · simp [roundConstants_get, rconByte]
  · simp [roundConstants_get, rconByte]
  · simpa using roundConstants_eq
  · simp
  · apply State.ext <;> simp
  · exact byteAt_congr (by simp) (by simp) (by simp) (by simp) (by simp)

/-! ### KEXPR (R138) -/

theorem expandRound_get_zero (W : Expanded) (RC : Vector Byte 10) (n : Fin 10) :
    (expandRound W RC n)[0] = xorWord W[4 * n.val] (expandSeed W RC n) := rfl

/-- R138: each later word of the round key comes from the one just computed. -/
theorem expandRound_get_succ (W : Expanded) (RC : Vector Byte 10) (n : Fin 10) (c : Nat) (h : c < 3) :
    (expandRound W RC n)[c + 1] = xorWord W[4 * n.val + (c + 1)] (expandRound W RC n)[c] := by
  interval_cases c <;> rfl

/-- Word `c` of the round key that KEXPR writes. -/
theorem kexpr_get (s : State) (n : Fin 10) (c : Nat) (h : c < 4) :
    (advance (writeRoundKey n (expandRound s.W s.RC n) s)).W[4 * n.val + 4 + c] = (expandRound s.W s.RC n)[c] := by
  have inside : 4 * n.val + 4 + c < 4 * n.val + 8 := by omega
  simp [writeRoundKey_get, inside]

/-- R138: a word written comes from the word written before it. -/
theorem kexpr_get_succ (s : State) (n : Fin 10) (c : Nat) (h : c < 3) :
    (advance (writeRoundKey n (expandRound s.W s.RC n) s)).W[4 * n.val + 4 + (c + 1)] =
      xorWord s.W[4 * n.val + (c + 1)]
        (advance (writeRoundKey n (expandRound s.W s.RC n) s)).W[4 * n.val + 4 + c] := by
  rw [kexpr_get s n (c + 1) (by omega), kexpr_get s n c (by omega), expandRound_get_succ _ _ _ c h]

/-- Settles O18: the words written are those of `expandRound`, a chain. -/
theorem kexprExpandsRound : Obligations.KexprExpandsRound := by
  intro s n
  refine ⟨_, exec_kexpr s n, kexpr_get s n 0 (by decide), kexpr_get_succ s n 0 (by decide),
    kexpr_get_succ s n 1 (by decide), kexpr_get_succ s n 2 (by decide), fun i hi => ?_, fun i => ?_, ?_, ?_, ?_⟩
  · have outside : ¬ (4 * n.val + 4 ≤ i.val ∧ i.val < 4 * n.val + 8) := by omega
    simp [writeRoundKey_get, outside]
  · simp [writeRoundKey_held_get]
  · apply Held.ext <;> simp
  · apply State.ext <;> simp
  · exact byteAt_congr (by simp) (by simp) (by simp) (by simp) (by simp)

/-! ### KEXPR computes the recurrence round key by round key (R137, R139) -/

/-- R137 at an index that is a multiple of 4. -/
theorem expandKey_round_zero (k : Block) (n : Fin 10) : (expandKey k)[4 * n.val + 4] =
    xorWord (expandKey k)[4 * n.val]
      (xorWord (subword (rotword (expandKey k)[4 * n.val + 3])) (rconWord (rconByte n.val))) := by
  have first : (4 * n.val + 4) % 4 = 0 := by omega
  have constant : (4 * n.val + 4) / 4 - 1 = n.val := by omega
  simpa [recurrenceWord, first, constant] using expandKey_rec k ⟨4 * n.val + 4, by omega⟩ (by simp)

/-- R137 at any other index. -/
theorem expandKey_round_succ (k : Block) (n : Fin 10) (c : Nat) (h : c < 3) : (expandKey k)[4 * n.val + 4 + (c + 1)] =
    xorWord (expandKey k)[4 * n.val + (c + 1)] (expandKey k)[4 * n.val + 4 + c] := by
  have later : (4 * n.val + 4 + (c + 1)) % 4 ≠ 0 := by omega
  have back : 4 * n.val + 4 + (c + 1) - 4 = 4 * n.val + (c + 1) := by omega
  simpa [recurrenceWord, later, back] using expandKey_rec k ⟨4 * n.val + 4 + (c + 1), by omega⟩ (by simp; omega)

/-- R138 from R137: KEXPR makes a round key of the expanded key from the one before it. -/
theorem expandRound_expandKey {k : Block} {W : Expanded} {RC : Vector Byte 10} {n : Fin 10}
    (hW : ∀ (d : Nat) (h : d < 4), W[4 * n.val + d] = (expandKey k)[4 * n.val + d]) (hRC : RC[n] = rconByte n.val)
    (c : Nat) (h : c < 4) : (expandRound W RC n)[c] = (expandKey k)[4 * n.val + 4 + c] := by
  induction c with
  | zero =>
    have first : W[4 * n.val] = (expandKey k)[4 * n.val] := hW 0 h
    rw [expandRound_get_zero, expandSeed, hRC, first, hW 3 (by decide)]
    exact (expandKey_round_zero k n).symm
  | succ c ih =>
    rw [expandRound_get_succ W RC n c (by omega), ih (by omega), hW (c + 1) h]
    exact (expandKey_round_succ k n c (by omega)).symm

/-- The state after KEYLOAD, RCONGEN and KEXPR 1 to KEXPR `n`: the round constants and round keys 0 to `n` stand. -/
structure RoundKeysReady (k : Block) (n : Nat) (s : State) : Prop where
  constants : s.RC = roundConstants
  words : ∀ i : Fin 44, i.val < 4 * n + 4 → s.W[i] = (expandKey k)[i]
  held : ∀ i : Fin 44, i.val < 4 * n + 4 → s.held.W[i] = true

/-- R131, R133: KEYLOAD and RCONGEN leave round key 0, the key itself. -/
theorem roundKeysReady_start (k : Block) (s : State) :
    RoundKeysReady k 0 (advance (writeRC roundConstants (advance (seedWords k (writeK k s))))) where
  constants := by simp
  words i hi := by simp [seedWords_get, expandKey_seed, hi]
  held i hi := by simp [seedWords_held_get, hi]

/-- R138: the next KEXPR adds the next round key. -/
theorem RoundKeysReady.kexpr {k : Block} {n : Fin 10} {s : State} (h : RoundKeysReady k n.val s) :
    RoundKeysReady k (n.val + 1) (advance (writeRoundKey n (expandRound s.W s.RC n) s)) where
  constants := by simpa using h.constants
  words i hi := by
    by_cases old : i.val < 4 * n.val + 4
    · have outside : ¬ (4 * n.val + 4 ≤ i.val ∧ i.val < 4 * n.val + 8) := by omega
      simpa [writeRoundKey_get, outside] using h.words i old
    · obtain ⟨c, hc⟩ : ∃ c, i.val = 4 * n.val + 4 + c := ⟨i.val - (4 * n.val + 4), by omega⟩
      have computed : (expandRound s.W s.RC n)[c] = (expandKey k)[4 * n.val + 4 + c] :=
        expandRound_expandKey (fun d hd => h.words ⟨4 * n.val + d, by omega⟩ (by simp; omega))
          (by rw [h.constants]; exact roundConstants_get n.val n.isLt) c (by omega)
      simp only [Fin.getElem_fin, hc]
      exact (kexpr_get s n c (by omega)).trans computed
  held i hi := by
    by_cases old : i.val < 4 * n.val + 4
    · simpa [writeRoundKey_held_get] using .inr (h.held i old)
    · simp [writeRoundKey_held_get]; omega

/-- KEXPR 1 to KEXPR `n`. -/
def kexprOps (n : Nat) : List Instr := (List.range n).map fun j => .kexpr (BitVec.ofNat 4 (j + 1))

theorem keysched_eq : keysched = .keyload :: .rcongen :: kexprOps 10 := rfl

theorem execAll_kexprOps {k : Block} {s : State} (h : RoundKeysReady k 0 s) (n : Nat) (hn : n ≤ 10) :
    ∃ t, execAll (kexprOps n) s = .next t ∧ RoundKeysReady k n t := by
  induction n with
  | zero => exact ⟨s, rfl, h⟩
  | succ n ih =>
    obtain ⟨t, run, ready⟩ := ih (by omega)
    have snoc : kexprOps (n + 1) = kexprOps n ++ [.kexpr (BitVec.ofNat 4 (n + 1))] := by
      simp [kexprOps, List.range_succ]
    refine ⟨_, ?_, ready.kexpr (n := ⟨n, hn⟩)⟩
    rw [snoc, execAll_append, run, Res.andThen_next]
    exact execAll_cons (exec_kexpr t ⟨n, hn⟩)

/-- Settles O53: by induction over the KEXPRs, each of which adds a round key of the recurrence. -/
theorem keyScheduleComputesExpandedKey : Obligations.KeyScheduleComputesExpandedKey := by
  intro s key hlen hkey
  obtain ⟨t, run, ready⟩ := execAll_kexprOps (roundKeysReady_start (zext16 key) s) 10 (by decide)
  refine ⟨t, ?_, Vector.ext fun i hi => ready.words ⟨i, hi⟩ hi, fun i => ready.held i i.isLt⟩
  rw [keysched_eq, execAll_cons (exec_keyload hlen hkey), execAll_cons (exec_rcongen _), run]

end Sys2Proof.Machine
end

section
/-! ADDROUNDKEY (R150, R151): the round-key words are the columns XORed into S, and UNPACK's index map turns that into the
XOR of two byte strings. -/

namespace Sys2Proof.Machine

@[simp] theorem roundKeyBytes_get (W : Expanded) (r : Fin 11) (k : Nat) (h : k < 16) :
    (roundKeyBytes W r)[k] = ((roundKey W r)[flatCol ⟨k, h⟩])[flatRow ⟨k, h⟩] := by
  simp [roundKeyBytes]

/-- R150: byte `row` of word `W[4r + col]` meets row `row` of column `col`. -/
theorem addRoundKey_roundKey_at (W : Expanded) (r : Fin 11) (m : Mat) (row col : Fin 4) :
    Mat.at (addRoundKey (roundKey W r) m) row col = Mat.at m row col ^^^ (W[4 * r.val + col.val])[row] := by
  rw [addRoundKey_at, Fin.getElem_fin (roundKey W r), roundKey_get]

/-- R151: the state's byte string is XORed with the round key's. -/
theorem unpackMat_addRoundKey_get (W : Expanded) (r : Fin 11) (m : Mat) (k : Nat) (h : k < 16) :
    (unpackMat (addRoundKey (roundKey W r) m))[k] = (unpackMat m)[k] ^^^ (roundKeyBytes W r)[k] := by
  rw [unpackMat_get, addRoundKey_at, unpackMat_get, roundKeyBytes_get]

/-- Settles O22: the state written is `addRoundKey` of round key `r`, read by element and by byte. -/
theorem addRoundKeyXors : Obligations.AddRoundKeyXors := fun s r =>
  ⟨_, exec_addroundkey s r, addRoundKey_roundKey_at s.W r s.S,
    fun k => unpackMat_addRoundKey_get s.W r s.S k k.isLt, writeS_frame _ _ s⟩

end Sys2Proof.Machine
end

section
/-! The block codec (R155 to R159): PACK and UNPACK move bytes along one index map, so each undoes the other, and a byte of
the chunk or of the output block is found by its flat index. -/

namespace Sys2Proof.Machine

/-! ### Packing and unpacking (R156, R159) -/

@[simp] theorem unpackMat_packBlock (b : Block) : unpackMat (packBlock b) = b := by
  ext k hk
  rw [unpackMat_get, packBlock_at]
  simp only [flatIndex_flat]

@[simp] theorem packBlock_unpackMat (m : Mat) : packBlock (unpackMat m) = m := by
  apply Mat.ext_at
  intro r c
  rw [packBlock_at, unpackMat_get, Fin.eta, flatRow_flatIndex, flatCol_flatIndex]

theorem packChunk_of_short {chunk : List Byte} (h : chunk.length ≤ 16) :
    packChunk chunk = some (packBlock (zext16 chunk)) := if_pos h

/-- Settles O15: the two index maps cancel, and a short chunk is packed as its zero-extension. -/
theorem packUnpackInverse : Obligations.PackUnpackInverse :=
  ⟨unpackMat_packBlock, packBlock_unpackMat, fun chunk h =>
    ⟨_, packChunk_of_short h, unpackMat_packBlock (zext16 chunk)⟩⟩

/-! ### PACK (R155) -/

/-- A string read from `a` on is read from offset 0 of the bytes counted from `a`. -/
theorem collect_shift (rd : Nat → Option Byte) (a b n : Nat) :
    collect (fun i => rd (a + i)) b n = collect rd (a + b) n := by
  induction n generalizing b with
  | zero => rfl
  | succ n ih => simp only [collect, ih, Nat.add_assoc]

/-- R155: the chunk reaches up to the end of the block or of the message. -/
theorem lt_chunkLength_iff {s : State} {k : Nat} : k < chunkLength s ↔ k < 16 ∧ 16 * s.blk + k < s.dlen := by
  unfold chunkLength blockBase
  omega

/-- R155: byte `k` of the zero-extended chunk is byte `k` of the block in DIN, or zero past the message. -/
theorem zext16_chunk_get {s : State} {chunk : List Byte}
    (h : collect (s.byteAt .din) (blockBase s) (chunkLength s) = some chunk) (k : Fin 16) :
    if 16 * s.blk + k.val < s.dlen then s.byteAt .din (16 * s.blk + k.val) = some (zext16 chunk)[k]
    else (zext16 chunk)[k] = 0 := by
  have counted : collect (fun i => s.byteAt .din (blockBase s + i)) 0 (chunkLength s) = some chunk := by
    rw [collect_shift, Nat.add_zero, h]
  simpa only [lt_chunkLength_iff, k.isLt, true_and, blockBase] using zext16_collect counted k

/-- Settles O20: the state written is the packed zero-extension of the chunk read. -/
theorem packLoadsBlock : Obligations.PackLoadsBlock := by
  intro s hlt hfits hbytes
  obtain ⟨chunk, hchunk⟩ := Option.isSome_iff_exists.1 <| collect_isSome_iff.2 fun k hk => by
    obtain ⟨inBlock, inMessage⟩ := lt_chunkLength_iff.1 hk
    exact hbytes (blockBase s + k) (Nat.le_add_right ..) (lt_min (Nat.add_lt_add_left inBlock _) inMessage)
  refine ⟨_, exec_pack (block_inSpace hfits hlt) hchunk, fun r c => ?_, writeS_frame _ _ s⟩
  simp only [writeS_fields, packBlock_at]
  exact zext16_chunk_get hchunk (flatIndex r c)

/-! ### UNPACK (R158) -/

/-- R158: byte `k` of the block stored is `S[k mod 4][k div 4]`. -/
theorem read_writeAll_unpackMat (d : Memory) (a : Nat) (m : Mat) (k : Fin 16) :
    Memory.read (Memory.writeAll d a (unpackMat m).toList) (a + k.val) = some (Mat.at m (flatRow k) (flatCol k)) := by
  rw [Memory.read_writeAll_inside _ _ _ (by simp)]
  simp

/-- A byte string stored in DOUT is all that changes in memory. -/
theorem sameMemoryBut_of_writeAll {s t : State} {a : Nat} {v : List Byte} (ho : t.dout = Memory.writeAll s.dout a v)
    (hk : t.keybuf = s.keybuf) (hd : t.din = s.din) (he : t.encProg = s.encProg) (hc : t.decProg = s.decProg)
    {n : Nat} (hn : v.length = n) : SameMemoryBut a n s t := by
  subst hn
  constructor
  · intro x hx
    simp only [State.byteAt, ho, Memory.read_writeAll_outside s.dout a v hx]
  · intro sp hsp x
    cases sp with
    | dout => exact absurd rfl hsp
    | _ => simp only [State.byteAt, hk, hd, he, hc]

/-- Settles O21: the 16 bytes stored are those of S in flat order. -/
theorem unpackStoresBlock : Obligations.UnpackStoresBlock := by
  intro s hin
  refine ⟨_, exec_unpack hin, rfl, fun k => ?bytes, ?memory, ?frame⟩
  case bytes => simp only [State.byteAt, advance_fields, dropS_fields, read_writeAll_unpackMat]
  case memory =>
    exact sameMemoryBut_of_writeAll (by simp) (by simp) (by simp) (by simp) (by simp) (unpackMat_length s.S)
  case frame => apply State.ext <;> simp

end Sys2Proof.Machine
end

section
/-! The control micro-ops (R177 to R179), the command start (R173), fault entry (R196) and reset (R220). -/

namespace Sys2Proof.Machine

/-! ### CHKARGS, BLKTEST and NEXTBLK -/

theorem argumentFault_keyTooLarge {s : State} (hk : 16 < s.keylen.toNat) : argumentFault s = some .keyTooLarge :=
  if_pos hk

/-- R199: the length is looked at only once the key has passed. -/
theorem argumentFault_lengthNotMultiple {s : State} (hk : s.keylen.toNat ≤ 16) (hp : s.prog = .dec)
    (hd : s.dlen % 16 ≠ 0) : argumentFault s = some .lengthNotMultiple :=
  (if_neg (Nat.not_lt.2 hk)).trans (if_pos ⟨hp, hd⟩)

/-- The converse of `argumentFault_eq_none`. -/
theorem argumentFault_eq_none_of_legal {s : State} (hk : s.keylen.toNat ≤ 16) (hd : s.prog = .dec → s.dlen % 16 = 0) :
    argumentFault s = none :=
  (if_neg (Nat.not_lt.2 hk)).trans (if_neg fun ⟨hp, hm⟩ => hm (hd hp))

/-- CHKARGS finds nothing but these two faults wrong. -/
theorem argumentFault_eq_some {s : State} {f : CoreFault} (h : argumentFault s = some f) :
    f = .keyTooLarge ∨ f = .lengthNotMultiple := by
  unfold argumentFault at h
  split_ifs at h <;> cases h
  · exact .inl rfl
  · exact .inr rfl

/-- Settles O26: the three answers of the argument check, each with its effect. -/
theorem chkargsChecksArguments : Obligations.ChkargsChecksArguments := fun _ =>
  ⟨fun hk hd => (Effect.chkargs (argumentFault_eq_none_of_legal hk hd)).exec_eq,
    fun hk => (Effect.chkargsFault _ (argumentFault_keyTooLarge hk)).exec_eq,
    fun hk hp hd => (Effect.chkargsFault _ (argumentFault_lengthNotMultiple hk hp hd)).exec_eq⟩

/-- Settles O27: the two effects of BLKTEST. -/
theorem blktestGoesOnOrEnds : Obligations.BlktestGoesOnOrEnds := fun s =>
  ⟨fun hb => (Effect.blktestOn hb).exec_eq,
    fun hb => ⟨_, (Effect.blktestEnd hb).exec_eq, by simp, by simp, by simp, finish_frame s⟩⟩

/-- Settles O28: the one effect of NEXTBLK. -/
theorem nextblkLoops : Obligations.NextblkLoops := fun _ => Effect.nextblk.exec_eq

/-! ### Command start, fault entry and reset -/

theorem startCommand_illegal {v : Byte} (h1 : v ≠ 0x01) (h2 : v ≠ 0x02) (s : State) :
    startCommand v s = raise .illegalCommand (latchCommand v s) :=
  (if_neg h1).trans (if_neg h2)

/-- Settles O29: while no command runs neither command is held back, nor is the fault of any other value. -/
theorem commandStarts : Obligations.CommandStarts := fun s hp =>
  ⟨(Effect.encrypt hp).exec_eq, (Effect.decrypt hp).exec_eq, fun _ h1 h2 =>
    (unlessBusy_of_not_busy hp _).trans (congrArg Host.Outcome.next (startCommand_illegal h1 h2 s))⟩

/-- Settles O30: the fields of `raise`, its frame, and the inputs among what it leaves. -/
theorem faultEntry : Obligations.FaultEntry := fun f s =>
  ⟨by simp, by simp, by simp, raise_frame f s, raise_sameInputs f s⟩

/-- R220: a reset is a step of its own, whatever STATE is. -/
theorem step_reset {s : State} {rest : List Event} (hs : s.sched = .reset :: rest) :
    step s = .next (resetCore { s with sched := rest }) := by
  simp only [step, hs]

/-- Settles O41: no hypothesis on STATE is needed. -/
theorem resetAbandonsCommand : Obligations.ResetAbandonsCommand := fun _ _ hs =>
  ⟨_, step_reset hs, rfl, rfl, rfl, rfl, rfl, rfl, fun _ => ⟨rfl, rfl, rfl⟩, rfl, rfl, rfl, rfl⟩

end Sys2Proof.Machine
end

section
/-! The step of a running command (R174): the micro-op fetched, the HOST's moves meanwhile (R201), the faults that can
end it (R190, R195), and the trace event of each write of S (R211). -/

namespace Sys2Proof.Machine

/-! ### The fetch -/

theorem fetched_eq_some {s : State} {w : Byte} {i : Instr} (hw : fetchWord s = some w) (hi : decodeMicro w = .ok i) :
    fetched s = some i := by
  simp only [fetched, hw, hi]

/-- Settles O32: the word is fetched from the ROM that PROG selects. -/
theorem stepRunsFetched : Obligations.StepRunsFetched := by
  intro s w i rest hp hn henc hdec hi
  have word : fetchWord { s with sched := rest } = some w := by
    unfold fetchWord
    cases hs : s.prog with
    | enc => exact henc hs
    | dec => exact hdec hs
  rw [hn.step_eq, coreTurn, if_pos hp, fetched_eq_some word hi]

/-! ### The HOST's moves while a command runs -/

theorem unlessBusy_of_busy {s : State} (hp : s.phase = .busy) (x : Res State) :
    unlessBusy s x = .refused .hostWhileBusy := if_pos hp

theorem commandWrite_of_busy {s : State} (hp : s.phase = .busy) (v : Byte) :
    commandWrite v s = .refused .hostWhileBusy := by
  cases h : decodeCommand v with
  | ok i =>
    rw [commandWrite_of_ok h]
    rcases decodeCommand_ok h with ⟨-, rfl⟩ | ⟨-, rfl⟩ <;> exact unlessBusy_of_busy hp _
  | error r =>
    simp only [commandWrite, h]
    exact unlessBusy_of_busy hp _

theorem hostAccess_of_busy {s : State} {m : HostMove} (hp : s.phase = .busy) (hm : m ≠ .readCr 1) :
    hostAccess m s = .refused .hostWhileBusy := by
  cases m with
  | readCr cr => exact if_pos ⟨hp, fun hcr => hm (congrArg HostMove.readCr hcr)⟩
  | writeCr | writeSpace | readSpace => exact unlessBusy_of_busy hp _

/-- R201: a write to CMD is held back like any other move. -/
theorem hostTurn_of_busy {s : State} {m : HostMove} (hp : s.phase = .busy) (hm : m ≠ .readCr 1) :
    hostTurn m s = .refused .hostWhileBusy := by
  unfold hostTurn
  split
  · exact commandWrite_of_busy hp _
  · exact hostAccess_of_busy hp hm

/-- R36: STATUS may be read at any time. -/
theorem hostReadCr_status (s : State) : hostReadCr 1 s = .next (answer s.status.toNat s) :=
  if_neg fun h => h.2 rfl

/-- Settles O35: the one move that R201 lets pass, and all the others. -/
theorem hostWhileBusy : Obligations.HostWhileBusy := by
  intro s m rest hp hs
  constructor
  · intro hm
    simp only [step, hs]
    exact hostTurn_of_busy hp hm
  · rintro rfl
    exact (step_host hs rfl).trans (hostReadCr_status _)

/-! ### The faults of a running command -/

theorem length_programOf (p : ProgSel) : (programOf p).length = 57 := by cases p <;> rfl

/-- R195: within the constant ROMs every fetch gives a micro-op. -/
theorem CommandInv.exists_fetched {s : State} (h : CommandInv s) (hp : s.phase = .busy) :
    ∃ i, fetched s = some i := by
  have hu : s.upc.toNat < 57 := Nat.lt_succ_of_le (h.run hp).upc_le
  exact ⟨_, (fetched_rom h.enc h.dec hu).trans (List.getElem?_eq_getElem (by rwa [length_programOf]))⟩

/-- Settles O47: a micro-op lets the command go on, ends it at DONE, or is the CHKARGS that faults. -/
theorem onlyChkargsFaults : Obligations.OnlyChkargsFaults := by
  intro s t h hp hc hs hf
  rw [step_of_coreMoves hc] at hs
  rcases coreTurn_eq_next.1 hs with ⟨hb, -⟩ | ⟨-, i, hi, he⟩ | ⟨-, hnone, -⟩
  · exact absurd hp hb
  · rcases he.goesOn_or_ends hp with g | ⟨rfl, f, hfault, rfl⟩ | ⟨-, -, rfl⟩
    · have busy : t.phase = .busy := g.phase.trans hp
      cases busy.symm.trans hf
    · refine ⟨hi, ?_⟩
      simpa using argumentFault_eq_some hfault
    · simp at hf
  · obtain ⟨i, hi⟩ := h.takeEvent.exists_fetched hp
    cases hi.symm.trans hnone

/-! ### The trace port -/

/-- R211: a micro-op that writes S emits what the trace port gives for the new S; no other emits anything. -/
theorem Effect.trace_eq {s t : State} {i : Instr} (h : Effect s i t) :
    t.trace = s.trace ++ if writesState i then traceEvents s i t.S else [] := by
  cases h <;> simp [writesState]

theorem traceEvents_enabled {s : State} (hport : s.params.tracePort = true) (hen : s.traceEn = true) (i : Instr)
    (m : Mat) : traceEvents s i m = [{ name := encode i, snapshot := unpackMat m }] := by
  simp [traceEvents, hport, hen]

theorem traceEvents_disabled {s : State} (h : s.params.tracePort = false ∨ s.traceEn = false) (i : Instr) (m : Mat) :
    traceEvents s i m = [] := by
  rcases h with h | h <;> simp [traceEvents, h]

/-- Settles O52: the events of the effect, with the port enabled, disabled or left alone. -/
theorem traceEmitsStateWrites : Obligations.TraceEmitsStateWrites := by
  intro i s t ht
  rw [(exec_effect ht).trace_eq]
  constructor
  · intro hport hen hw
    rw [if_pos hw, traceEvents_enabled hport hen]
  · rintro (hport | hen | hw)
    · simp [traceEvents_disabled (.inl hport)]
    · simp [traceEvents_disabled (.inr hen)]
    · simp [hw]

end Sys2Proof.Machine
end

section
/-! Where no rule arrives (R203): the operands and the accesses that are refused, the bytes that hold no value, and PACK
with no byte left (log 12). -/

namespace Sys2Proof.Machine

/-! ### MemRead -/

theorem memRead_eq_refused {s : State} {sp : Space} {a n : Nat} (h : s.inSpace sp a n = false) :
    memRead s sp a n = .refused .accessOutsideSpace :=
  if_neg (by simp [h])

/-- R21: one byte without a value stops the whole access (log 3). -/
theorem memRead_eq_fault {s : State} {sp : Space} {a n x : Nat} (hin : s.inSpace sp a n = true) (lo : a ≤ x)
    (hi : x < a + n) (hx : s.byteAt sp x = none) : memRead s sp a n = .fault .unwrittenRead := by
  have unread : collect (s.byteAt sp) a n = none := by
    rw [← Option.not_isSome_iff_eq_none, collect_isSome_iff]
    intro all
    have held := all (x - a) (by omega)
    rw [Nat.add_sub_cancel' lo, hx] at held
    cases held
  rw [memRead, if_pos hin, unread]

theorem inSpace_keybuf (s : State) (n : Nat) : s.inSpace .keybuf 0 n = decide (n ≤ 16) := by
  simp [State.inSpace, State.spaceSize]

/-! ### Operands that no legal word carries (R74, R141) -/

theorem exec_kexpr_eq_refused {s : State} {j : BitVec 4} (h : j.toNat = 0 ∨ 10 < j.toNat) :
    exec (.kexpr j) s = .refused .operandOutOfRange := by
  have illegal : expandIndex j = none := dif_neg (by omega)
  simp only [exec, execKexpr, illegal]

theorem exec_addroundkey_eq_refused {s : State} {r : BitVec 4} (h : 10 < r.toNat) :
    exec (.addroundkey r) s = .refused .operandOutOfRange := by
  have illegal : getSubkey s.W r.toNat = none := dif_neg (by omega)
  simp only [exec, execAddroundkey, illegal]

/-! ### Accesses outside their space, and bytes that hold no value -/

/-- KEYLOAD stops where its read of KEYBUF does. -/
theorem exec_keyload_eq_refused {s : State} (h : 16 < s.keylen.toNat) :
    exec .keyload s = .refused .accessOutsideSpace := by
  have outside : s.inSpace .keybuf 0 s.keylen.toNat = false := by rw [inSpace_keybuf]; exact decide_eq_false (by omega)
  simp only [exec, execKeyload, memRead_eq_refused outside, Res.andThen_refused]

theorem exec_keyload_eq_fault {s : State} {a : Nat} (h : s.keylen.toNat ≤ 16) (hlt : a < s.keylen.toNat)
    (ha : s.byteAt .keybuf a = none) : exec .keyload s = .fault .unwrittenRead := by
  have inside : s.inSpace .keybuf 0 s.keylen.toNat = true := by rw [inSpace_keybuf]; exact decide_eq_true h
  simp only [exec, execKeyload, memRead_eq_fault inside (Nat.zero_le a) (by omega) ha, Res.andThen_fault]

/-- PACK stops where its read of DIN does. -/
theorem exec_pack_eq_refused {s : State} (h : s.inSpace .din (blockBase s) (chunkLength s) = false) :
    exec .pack s = .refused .accessOutsideSpace := by
  simp only [exec, execPack, memRead_eq_refused h, Res.andThen_refused]

theorem exec_pack_eq_fault {s : State} {a : Nat} (hfits : s.params.size.admits s.dlen = true) (lo : 16 * s.blk ≤ a)
    (hi : a < min (16 * s.blk + 16) s.dlen) (ha : s.byteAt .din a = none) : exec .pack s = .fault .unwrittenRead := by
  have inside := block_inSpace hfits (by omega)
  have inChunk : a < blockBase s + chunkLength s := by unfold chunkLength blockBase; omega
  simp only [exec, execPack, memRead_eq_fault inside lo inChunk ha, Res.andThen_fault]

theorem exec_unpack_eq_refused {s : State} (h : s.inSpace .dout (blockBase s) 16 = false) :
    exec .unpack s = .refused .accessOutsideSpace := by
  have outside : s.inSpace .dout (blockBase s) (unpackMat s.S).toList.length = false := by rwa [unpackMat_length]
  simp only [exec, execUnpack, memWrite_eq_refused outside, Res.andThen_refused]

/-! ### PACK with no byte left -/

theorem chunkLength_eq_zero {s : State} (h : s.dlen ≤ 16 * s.blk) : chunkLength s = 0 := by
  unfold chunkLength blockBase
  omega

theorem zext16_nil_get (k : Nat) (h : k < 16) : (zext16 [])[k] = 0 := by simp

/-- The empty chunk is read from any address inside DIN, and zero-extended to the zero block. -/
theorem exec_pack_no_byte {s : State} (h : s.dlen ≤ 16 * s.blk) (hin : s.inSpace .din (16 * s.blk) 0 = true) :
    exec .pack s = .next (writeS .pack (packBlock (zext16 [])) s) := by
  have empty := chunkLength_eq_zero h
  exact exec_pack (by rwa [empty]) (by rw [empty]; rfl)

/-- Settles O31: each clause by the one access or operand that stops the micro-op. -/
theorem outsideTheRules : Obligations.OutsideTheRules := fun s =>
  ⟨fun _ => exec_kexpr_eq_refused, fun _ => exec_addroundkey_eq_refused, exec_keyload_eq_refused, exec_pack_eq_refused,
    exec_unpack_eq_refused, fun _ hc => if_neg (Nat.not_le.2 hc),
    fun _ => ⟨exec_keyload_eq_fault, exec_pack_eq_fault⟩,
    fun h hin => ⟨_, exec_pack_no_byte h hin, fun r c => (packBlock_at _ r c).trans (zext16_nil_get _ _),
      writeS_frame _ _ s⟩⟩

end Sys2Proof.Machine
end

section
/-! EncBlock and DecBlock (R166, R171) as maps of the state that undo each other round by round (R172, R184), and as
what the transforms of ENCBLOCK and DECBLOCK compute. -/

namespace Sys2Proof.Machine

/-! ### The transforms on the state: total, for MIX and INVMIX hold legal selectors only -/

/-- R166: one of the rounds 1 to 9. -/
def encRoundMat (W : Expanded) (m : Mat) (r : Fin 11) : Mat :=
  addRoundKey (roundKey W r) (matProduct mixMatrix (shiftRows (subBytes m)))

/-- R171: one of the rounds 9 down to 1. -/
def decRoundMat (W : Expanded) (m : Mat) (r : Fin 11) : Mat :=
  invSubBytes (invShiftRows (matProduct invMixMatrix (addRoundKey (roundKey W r) m)))

/-- The rounds that hold a MIXCOLUMNS or an INVMIXCOLUMNS, in the order of R166. -/
def innerRounds : List (Fin 11) := [1, 2, 3, 4, 5, 6, 7, 8, 9]

/-- R166: what EncBlock does to the state. -/
def encMat (W : Expanded) (m : Mat) : Mat :=
  addRoundKey (roundKey W 10)
    (shiftRows (subBytes (innerRounds.foldl (encRoundMat W) (addRoundKey (roundKey W 0) m))))

/-- R171: what DecBlock does to the state. -/
def decMat (W : Expanded) (m : Mat) : Mat :=
  addRoundKey (roundKey W 0)
    (innerRounds.reverse.foldl (decRoundMat W) (invSubBytes (invShiftRows (addRoundKey (roundKey W 10) m))))

theorem encRound_eq (W : Expanded) : encRound W = fun m r => pure (encRoundMat W m r) :=
  funext fun m => funext fun r => by rw [encRound, mixColumns_eq_matProduct]; rfl

theorem decRound_eq (W : Expanded) : decRound W = fun m r => pure (decRoundMat W m r) :=
  funext fun m => funext fun r => by rw [decRound, invMixColumns_eq_matProduct]; rfl

theorem encBlock_eq (b : Block) (W : Expanded) : encBlock b W = .ok (unpackMat (encMat W (packBlock b))) := by
  rw [encBlock, encRound_eq, List.foldlM_pure]
  rfl

theorem decBlock_eq (b : Block) (W : Expanded) : decBlock b W = .ok (unpackMat (decMat W (packBlock b))) := by
  rw [decBlock, decRound_eq, List.foldlM_pure]
  rfl

/-! ### Each undoes the other -/

/-- R153: ADDROUNDKEY is its own inverse. -/
theorem addRoundKey_addRoundKey (key : Vector Word 4) (m : Mat) : addRoundKey key (addRoundKey key m) = m :=
  Mat.ext_at fun r c => by rw [addRoundKey_at, addRoundKey_at, BitVec.xor_assoc, BitVec.xor_self, BitVec.xor_zero]

theorem invSubBytes_subBytes (m : Mat) : invSubBytes (subBytes m) = m := substitute_substitute isbox_fsbox m

theorem subBytes_invSubBytes (m : Mat) : subBytes (invSubBytes m) = m := substitute_substitute fsbox_isbox m

theorem invShiftRows_shiftRows (m : Mat) : invShiftRows (shiftRows m) = m := (shiftRowsLaws m).1

theorem shiftRows_invShiftRows (m : Mat) : shiftRows (invShiftRows m) = m := (shiftRowsLaws m).2.1

/-- R184: a round of DecBlock undoes the round of EncBlock with the same round key. -/
theorem decRoundMat_encRoundMat (W : Expanded) (m : Mat) (r : Fin 11) : decRoundMat W (encRoundMat W m r) r = m := by
  rw [decRoundMat, encRoundMat, addRoundKey_addRoundKey, matProduct_matProduct_cancel invMixMatrix_mixMatrix_entry,
    invShiftRows_shiftRows, invSubBytes_subBytes]

theorem encRoundMat_decRoundMat (W : Expanded) (m : Mat) (r : Fin 11) : encRoundMat W (decRoundMat W m r) r = m := by
  rw [decRoundMat, encRoundMat, subBytes_invSubBytes, shiftRows_invShiftRows,
    matProduct_matProduct_cancel mixMatrix_invMixMatrix_entry, addRoundKey_addRoundKey]

/-- Steps undone one by one, the last first. -/
theorem foldl_reverse_cancel {α β : Type} {f g : α → β → α} (h : ∀ a b, g (f a b) b = a) (l : List β) (a : α) :
    l.reverse.foldl g (l.foldl f a) = a := by
  induction l generalizing a with
  | nil => rfl
  | cons b l ih => rw [List.foldl_cons, List.reverse_cons, List.foldl_append, ih]; exact h a b

theorem decMat_encMat (W : Expanded) (m : Mat) : decMat W (encMat W m) = m := by
  rw [decMat, encMat, addRoundKey_addRoundKey, invShiftRows_shiftRows, invSubBytes_subBytes,
    foldl_reverse_cancel (decRoundMat_encRoundMat W), addRoundKey_addRoundKey]

theorem encMat_decMat (W : Expanded) (m : Mat) : encMat W (decMat W m) = m := by
  have rounds := foldl_reverse_cancel (encRoundMat_decRoundMat W) innerRounds.reverse
  rw [List.reverse_reverse] at rounds
  rw [decMat, encMat, addRoundKey_addRoundKey, rounds, subBytes_invSubBytes, shiftRows_invShiftRows,
    addRoundKey_addRoundKey]

/-- Settles O58: both are total, and their maps of the state undo each other. -/
theorem blocksRoundTrip : Obligations.BlocksRoundTrip := by
  intro b W
  refine ⟨⟨_, encBlock_eq b W, ?_⟩, ⟨_, decBlock_eq b W, ?_⟩⟩
  · rw [decBlock_eq, packBlock_unpackMat, decMat_encMat, unpackMat_packBlock]
  · rw [encBlock_eq, packBlock_unpackMat, encMat_decMat, unpackMat_packBlock]

/-! ### The transforms of a block, one after the other -/

section
variable {s t : State} (h : SameButS s t)
include h

theorem SameButS.W : t.W = s.W := by rw [h.1]

theorem SameButS.dout : t.dout = s.dout := by rw [h.1]

theorem SameButS.blk : t.blk = s.blk := by rw [h.1]

theorem SameButS.params : t.params = s.params := by rw [h.1]

end

theorem SameButS.refl (s : State) : SameButS s s := ⟨rfl, fun _ _ => rfl⟩

theorem SameButS.trans {s t u : State} (h : SameButS s t) (g : SameButS t u) : SameButS s u :=
  ⟨by rw [g.1, h.1], fun sp a => (g.2 sp a).trans (h.2 sp a)⟩

/-- Under the expanded key `W` these micro-ops apply `f` to S, and change nothing else but the UPC and the trace. -/
def Transforms (W : Expanded) (l : List Instr) (f : Mat → Mat) : Prop :=
  ∀ s : State, s.W = W → ∃ t, execAll l s = .next t ∧ t.S = f s.S ∧ SameButS s t

/-- A micro-op that writes S (R174). -/
theorem Transforms.single {W : Expanded} {i : Instr} {f : Mat → Mat}
    (h : ∀ s : State, s.W = W → Effect s i (writeS i (f s.S) s)) : Transforms W [i] f := fun s hs =>
  ⟨_, (execAll_cons (h s hs).exec_eq).trans rfl, by simp, (writeS_frame i (f s.S) s).1⟩

theorem Transforms.append {W : Expanded} {l m : List Instr} {f g : Mat → Mat} (h : Transforms W l f)
    (k : Transforms W m g) : Transforms W (l ++ m) fun x => g (f x) := by
  intro s hs
  obtain ⟨t, ht, hS, hst⟩ := h s hs
  obtain ⟨u, hu, hS', htu⟩ := k t (hst.W.trans hs)
  exact ⟨u, by rw [execAll_append, ht, Res.andThen_next, hu], by rw [hS', hS], hst.trans htu⟩

theorem Transforms.cons {W : Expanded} {i : Instr} {l : List Instr} {f g : Mat → Mat} (h : Transforms W [i] f)
    (k : Transforms W l g) : Transforms W (i :: l) fun x => g (f x) := h.append k

/-- The micro-ops of one round after another. -/
theorem Transforms.rounds {W : Expanded} {ops : BitVec 4 → List Instr} {f : Mat → Fin 11 → Mat}
    (h : ∀ r : Fin 11, Transforms W (ops (BitVec.ofNat 4 r.val)) fun m => f m r) (rs : List (Fin 11)) :
    Transforms W ((rs.map fun r => BitVec.ofNat 4 r.val).flatMap ops) fun m => rs.foldl f m := by
  induction rs with
  | nil => exact fun s _ => ⟨s, rfl, rfl, .refl s⟩
  | cons r rs ih => exact (h r).append ih

section
variable (W : Expanded)

theorem transforms_addroundkey (r : Fin 11) :
    Transforms W [.addroundkey (BitVec.ofNat 4 r.val)] (addRoundKey (roundKey W r)) :=
  .single fun _ hs => hs ▸ exec_effect (exec_addroundkey _ r)

theorem transforms_subbytes : Transforms W [.subbytes] subBytes := .single fun _ _ => .subbytes

theorem transforms_invsubbytes : Transforms W [.invsubbytes] invSubBytes := .single fun _ _ => .invsubbytes

theorem transforms_shiftrows : Transforms W [.shiftrows] shiftRows := .single fun _ _ => .shiftrows

theorem transforms_invshiftrows : Transforms W [.invshiftrows] invShiftRows := .single fun _ _ => .invshiftrows

theorem transforms_mixcolumns : Transforms W [.mixcolumns] (matProduct mixMatrix) :=
  .single fun s _ => .mixcolumns _ (mixColumns_eq_matProduct s.S)

theorem transforms_invmixcolumns : Transforms W [.invmixcolumns] (matProduct invMixMatrix) :=
  .single fun s _ => .invmixcolumns _ (invMixColumns_eq_matProduct s.S)

/-- R82, R166: ROUND r. -/
theorem transforms_roundOps (r : Fin 11) :
    Transforms W (roundOps (BitVec.ofNat 4 r.val)) fun m => encRoundMat W m r :=
  (transforms_subbytes W).cons <| (transforms_shiftrows W).cons <| (transforms_mixcolumns W).cons <|
    transforms_addroundkey W r

/-- R82, R171: INVROUND r. -/
theorem transforms_invRoundOps (r : Fin 11) :
    Transforms W (invRoundOps (BitVec.ofNat 4 r.val)) fun m => decRoundMat W m r :=
  (transforms_addroundkey W r).cons <| (transforms_invmixcolumns W).cons <| (transforms_invshiftrows W).cons <|
    transforms_invsubbytes W

/-- R82, R166: ENCBLOCK. -/
theorem transforms_encBlockOps : Transforms W encBlockOps (encMat W) :=
  ((transforms_addroundkey W 0).append (.rounds (transforms_roundOps W) innerRounds)).append <|
    (transforms_subbytes W).cons <| (transforms_shiftrows W).cons <| transforms_addroundkey W 10

/-- R82, R171: DECBLOCK. -/
theorem transforms_decBlockOps : Transforms W decBlockOps (decMat W) :=
  (Transforms.append
      ((transforms_addroundkey W 10).cons <| (transforms_invshiftrows W).cons <| transforms_invsubbytes W)
      (.rounds (transforms_invRoundOps W) innerRounds.reverse)).append <|
    transforms_addroundkey W 0

end

/-- Settles O54: the transforms apply the block's map to S, which is the packed form of its own bytes. -/
theorem blockOpsComputeBlock : Obligations.BlockOpsComputeBlock := by
  intro s
  obtain ⟨t, ht, hS, hst⟩ := transforms_encBlockOps s.W s rfl
  obtain ⟨u, hu, hS', hsu⟩ := transforms_decBlockOps s.W s rfl
  exact ⟨⟨t, ht, by rw [encBlock_eq, packBlock_unpackMat, hS], hst.W⟩,
    u, hu, by rw [decBlock_eq, packBlock_unpackMat, hS'], hsu.W⟩

end Sys2Proof.Machine
end

section
/-! Messages (R55, R165, R170, R172): a message as its blocks, the bytes of a sequence of blocks, and the two
transactions as a map of every block. -/

namespace Sys2Proof.Machine

/-! ### Blocks and bytes -/

/-- The first `n` blocks of a message, zero-filled where it has no byte (R55). -/
def firstBlocks (p : List Byte) (n : Nat) : List Block := (List.range n).map (messageBlock p)

/-- R55, R57: the blocks of a message. -/
def blocksOf (p : List Byte) : List Block := firstBlocks p (blockCount p.length)

/-- R55: the concatenation of blocks. -/
def bytesOf (bs : List Block) : List Byte := (bs.map Vector.toList).flatten

theorem firstBlocks_succ (p : List Byte) (n : Nat) : firstBlocks p (n + 1) = firstBlocks p n ++ [messageBlock p n] := by
  simp [firstBlocks, List.range_succ]

theorem bytesOf_cons (b : Block) (bs : List Block) : bytesOf (b :: bs) = b.toList ++ bytesOf bs := by simp [bytesOf]

theorem bytesOf_append_singleton (bs : List Block) (b : Block) : bytesOf (bs ++ [b]) = bytesOf bs ++ b.toList := by
  simp [bytesOf]

theorem length_bytesOf (bs : List Block) : (bytesOf bs).length = 16 * bs.length := by
  induction bs with
  | nil => rfl
  | cons b bs ih => rw [bytesOf_cons, List.length_append, ih, Vector.length_toList, List.length_cons]; omega

/-- R55: block `b` is one of the message's when the message has a byte of it. -/
theorem lt_blockCount_iff {b n : Nat} : b < blockCount n ↔ 16 * b < n := by
  unfold blockCount
  omega

theorem blockCount_of_pos {n : Nat} (h : 0 < n) : blockCount n = blockCount (n - 16) + 1 := by
  unfold blockCount
  omega

theorem messageBlock_zero (p : List Byte) : messageBlock p 0 = zext16 (p.take 16) := rfl

theorem messageBlock_succ (p : List Byte) (n : Nat) : messageBlock p (n + 1) = messageBlock (p.drop 16) n := by
  rw [messageBlock, messageBlock, List.drop_drop, show 16 + 16 * n = 16 * (n + 1) by omega]

/-- R55: a message that is not empty is its first 16 bytes, zero-filled, and the blocks of the rest. -/
theorem blocksOf_eq_cons {p : List Byte} (h : p ≠ []) : blocksOf p = zext16 (p.take 16) :: blocksOf (p.drop 16) := by
  rw [blocksOf, blocksOf, List.length_drop, blockCount_of_pos (List.length_pos_of_ne_nil h), firstBlocks, firstBlocks,
    List.range_succ_eq_map, List.map_cons, List.map_map, messageBlock_zero]
  exact congrArg _ (List.map_congr_left fun n _ => messageBlock_succ p n)

/-- Blocks put together and cut again. -/
theorem blocksOf_bytesOf (bs : List Block) : blocksOf (bytesOf bs) = bs := by
  induction bs with
  | nil => rfl
  | cons b bs ih =>
    have len : b.toList.length = 16 := b.length_toList
    have nonempty : bytesOf (b :: bs) ≠ [] := List.ne_nil_of_length_pos (by rw [length_bytesOf]; simp)
    rw [blocksOf_eq_cons nonempty, bytesOf_cons, List.take_left' len, List.drop_left' len, zext16_toList, ih]

/-- R12: the bytes of a chunk of at most 16 bytes, zero-extended. -/
theorem toList_zext16 {v : List Byte} (h : v.length ≤ 16) :
    (zext16 v).toList = v ++ List.replicate (16 - v.length) 0 := by
  apply List.ext_getElem
  · simp; omega
  · intro i hi _
    by_cases hv : i < v.length <;> simp [hv, List.getElem_append]

/-- R55, R57: a message cut into blocks and put together again is followed by the zeros of its padding. -/
theorem bytesOf_blocksOf (p : List Byte) :
    bytesOf (blocksOf p) = p ++ List.replicate (16 * blockCount p.length - p.length) 0 := by
  induction hn : p.length using Nat.strong_induction_on generalizing p with
  | _ n ih =>
    subst hn
    by_cases hp : p = []
    · subst hp; rfl
    have pos := List.length_pos_of_ne_nil hp
    have rest := ih _ (by simp; omega) (p.drop 16) rfl
    rw [blocksOf_eq_cons hp, bytesOf_cons, rest, toList_zext16 (List.length_take_le ..), List.length_drop,
      List.length_take, blockCount_of_pos pos]
    by_cases hlong : 16 ≤ p.length
    · have whole : 16 - min 16 p.length = 0 := by omega
      have pad : 16 * (blockCount (p.length - 16) + 1) - p.length =
          16 * blockCount (p.length - 16) - (p.length - 16) := by omega
      rw [whole, pad, List.replicate_zero, List.append_nil, ← List.append_assoc, List.take_append_drop]
    · have short : p.length - 16 = 0 := by omega
      rw [List.take_of_length_le (by omega), List.drop_of_length_le (by omega), short, Nat.min_eq_right (by omega)]
      simp [blockCount]

/-! ### The two transactions -/

/-- R165, R170: a total map of every block gives the concatenation of its results. -/
theorem eachBlock_eq {f : Block → Except CoreFault Block} {g : Block → Block} (h : ∀ b, f b = .ok (g b))
    (p : List Byte) : eachBlock f p = .ok (bytesOf ((blocksOf p).map g)) := by
  have total : (fun b => f (messageBlock p b)) = fun b => pure (g (messageBlock p b)) := funext fun b => h _
  rw [eachBlock, total, List.mapM_pure, blocksOf, firstBlocks, List.map_map]
  rfl

/-- What the command's transforms do to the state under the expanded key `W`. -/
def blockMat (p : ProgSel) (W : Expanded) : Mat → Mat :=
  match p with
  | .enc => encMat W
  | .dec => decMat W

/-- R166, R171: what the command does to a block. -/
def blockResult (p : ProgSel) (W : Expanded) (b : Block) : Block := unpackMat (blockMat p W (packBlock b))

/-- R165, R170: the bytes of a message's blocks, each through `blockResult`, under the supplied key. -/
def messageResult (p : ProgSel) (msg key : List Byte) : List Byte :=
  bytesOf ((blocksOf msg).map (blockResult p (expandKey (zext16 key))))

theorem encryptMessage_eq {msg key : List Byte} (hk : key.length ≤ 16) :
    encryptMessage msg key = .ok (messageResult .enc msg key) :=
  (if_neg (Nat.not_lt.2 hk)).trans (eachBlock_eq (fun b => encBlock_eq b _) msg)

theorem decryptMessage_eq {msg key : List Byte} (hk : key.length ≤ 16) (hm : msg.length % 16 = 0) :
    decryptMessage msg key = .ok (messageResult .dec msg key) :=
  (if_neg (Nat.not_lt.2 hk)).trans ((if_neg (not_not.2 hm)).trans (eachBlock_eq (fun b => decBlock_eq b _) msg))

theorem length_messageResult (p : ProgSel) (msg key : List Byte) : (messageResult p msg key).length % 16 = 0 := by
  rw [messageResult, length_bytesOf, Nat.mul_mod_right]

theorem blockResult_dec_enc (W : Expanded) (b : Block) : blockResult .dec W (blockResult .enc W b) = b := by
  simp only [blockResult, blockMat, packBlock_unpackMat, decMat_encMat, unpackMat_packBlock]

theorem blockResult_enc_dec (W : Expanded) (b : Block) : blockResult .enc W (blockResult .dec W b) = b := by
  simp only [blockResult, blockMat, packBlock_unpackMat, encMat_decMat, unpackMat_packBlock]

/-- R172: where one direction undoes the other on every block, the message comes back with its padding. -/
theorem messageResult_messageResult {p q : ProgSel} (h : ∀ W b, blockResult q W (blockResult p W b) = b)
    (msg key : List Byte) : messageResult q (messageResult p msg key) key =
      msg ++ List.replicate (16 * blockCount msg.length - msg.length) 0 := by
  have undone : ∀ W, blockResult q W ∘ blockResult p W = id := fun W => funext (h W)
  rw [messageResult, messageResult, blocksOf_bytesOf, List.map_map, undone, List.map_id, bytesOf_blocksOf]

/-- A message of whole blocks has no padding. -/
theorem padding_eq_zero {n : Nat} (h : n % 16 = 0) : 16 * blockCount n - n = 0 := by
  unfold blockCount
  omega

/-- Settles O59: both transactions map every block, and the two maps undo each other. -/
theorem messagesRoundTrip : Obligations.MessagesRoundTrip := by
  intro p key hk
  refine ⟨⟨_, encryptMessage_eq hk, ?_⟩, fun hp => ⟨_, decryptMessage_eq hk hp, ?_⟩⟩
  · rw [decryptMessage_eq hk (length_messageResult ..), messageResult_messageResult blockResult_dec_enc]
  · rw [encryptMessage_eq hk, messageResult_messageResult blockResult_enc_dec, padding_eq_zero hp,
      List.replicate_zero, List.append_nil]

end Sys2Proof.Machine
end

section
/-! A command from its start to its end (R173 to R183): the key schedule, one pass of the loop for each block, and the
BLKTEST that ends it; what the HOST then finds is the transaction's result. -/

namespace Sys2Proof.Machine

/-! ### Runs -/

/-- `n` steps lead from `s` to `t`, BUSY before each of them. -/
structure RunsBusy (n : Nat) (s t : State) : Prop where
  busy : ∀ m, m < n → ∃ v : State, Host.Core.run core m s = .next v ∧ v.phase = .busy
  ends : Host.Core.run core n s = .next t

theorem RunsBusy.one {s t : State} (hp : s.phase = .busy) (hs : step s = .next t) : RunsBusy 1 s t where
  busy m hm := by
    obtain rfl : m = 0 := by omega
    exact ⟨s, rfl, hp⟩
  ends := run_succ 0 hs

theorem RunsBusy.trans {m n : Nat} {s t u : State} (h : RunsBusy m s t) (g : RunsBusy n t u) :
    RunsBusy (m + n) s u where
  busy k hk := by
    by_cases hm : k < m
    · exact h.busy k hm
    · obtain ⟨d, rfl⟩ := Nat.exists_eq_add_of_le (Nat.le_of_not_lt hm)
      rw [run_add m d h.ends]
      exact g.busy d (by omega)
  ends := (run_add m n h.ends).trans g.ends

/-! ### The parts of the micro-programs (R175, R176) -/

/-- The transforms of a block. -/
def blockOps : ProgSel → List Instr
  | .enc => encBlockOps
  | .dec => decBlockOps

/-- Indices 14 to 55: a block from DIN to DOUT. -/
def blockPass (p : ProgSel) : List Instr := .pack :: (blockOps p ++ [.unpack])

theorem programOf_chkargs (p : ProgSel) : (programOf p)[0]? = some .chkargs := by cases p <;> rfl

theorem programOf_keysched (p : ProgSel) : (programOf p).drop 1 = keysched ++ (programOf p).drop 13 := by
  cases p <;> rfl

theorem programOf_blktest (p : ProgSel) : (programOf p)[13]? = some .blktest := by cases p <;> rfl

theorem programOf_blockPass (p : ProgSel) : (programOf p).drop 14 = blockPass p ++ [.nextblk] := by cases p <;> rfl

theorem programOf_nextblk (p : ProgSel) : (programOf p)[56]? = some .nextblk := by cases p <;> rfl

theorem blockPass_straight (p : ProgSel) : (blockPass p).all straight = true := by cases p <;> rfl

theorem length_blockPass (p : ProgSel) : (blockPass p).length = 42 := by cases p <;> rfl

theorem transforms_blockOps (p : ProgSel) (W : Expanded) : Transforms W (blockOps p) (blockMat p W) :=
  match p with
  | .enc => transforms_encBlockOps W
  | .dec => transforms_decBlockOps W

/-! ### A command on its message -/

/-- The command `p` runs on the message `msg`, which lies in DIN and fits in DMAX. -/
structure Serving (p : ProgSel) (msg : List Byte) (s : State) : Prop extends Running s where
  prog : s.prog = p
  dlen : s.dlen = msg.length
  size_wf : s.params.size.wf = true
  fits : s.params.size.admits s.dlen = true
  msg_bytes : collect (s.byteAt .din) 0 s.dlen = some msg

section
variable {p : ProgSel} {W : Expanded} {key msg : List Byte} {s t : State}

theorem Serving.congr (h : Serving p msg s) (g : SameControl s t) : Serving p msg t where
  toRunning := h.toRunning.congr g
  prog := g.prog.trans h.prog
  dlen := g.dlen.trans h.dlen
  size_wf := by rw [g.params]; exact h.size_wf
  fits := by rw [g.params, g.dlen]; exact h.fits
  msg_bytes := by
    have din : t.byteAt .din = s.byteAt .din := by funext a; simp only [State.byteAt, g.din]
    rw [din, g.dlen]; exact h.msg_bytes

/-- One micro-op, found at its index. -/
theorem Serving.step {i : Instr} (h : Serving p msg s) {u : Nat} (hu : s.upc.toNat = u) (hlt : u < 57)
    (hi : (programOf p)[u]? = some i) (he : Effect s i t) : RunsBusy 1 s t :=
  .one h.busy ((h.toRunning.step (hu ▸ hlt) (by rw [h.prog, hu, hi])).trans he.exec_eq)

/-- A straight run of micro-ops, found from its first index on. -/
theorem Serving.straight {l rest : List Instr} (h : Serving p msg s) {u : Nat} (hu : s.upc.toNat = u)
    (hl : (programOf p).drop u = l ++ rest) (hst : l.all straight = true) (hx : execAll l s = .next t) :
    RunsBusy l.length s t ∧ Serving p msg t ∧ SameControl s t ∧ t.upc.toNat = u + l.length := by
  obtain ⟨same, upc, busy, ends⟩ := run_straight l rest s t h.toRunning (by rw [h.prog, hu, hl]) hst hx
  exact ⟨⟨fun m hm => busy m hm.le, ends⟩, h.congr same, same, hu ▸ upc⟩

/-! ### One pass of the loop -/

/-- R38: what fits in DMAX lies in DOUT. -/
theorem inSpace_dout {n a k : Nat} (h : s.params.size.admits n = true) (hle : a + k ≤ n) :
    s.inSpace .dout a k = true := by
  simp only [State.inSpace, State.spaceSize]
  cases hz : s.params.size with
  | unbounded => rfl
  | bounded dmax lenw =>
    rw [hz, Config.Sizing.admits, decide_eq_true_eq] at h
    exact decide_eq_true (hle.trans h)

/-- R155: PACK reads block BLK of the message. -/
theorem Serving.pack (h : Serving p msg s) (hb : 16 * s.blk < s.dlen) :
    exec .pack s = .next (writeS .pack (packBlock (messageBlock msg s.blk)) s) := by
  have chunk := collect_part h.msg_bytes (blockBase s) (chunkLength s) (by unfold chunkLength blockBase; omega)
  have cut : (msg.drop (blockBase s)).take (chunkLength s) = (msg.drop (16 * s.blk)).take 16 := by
    rw [chunkLength, h.dlen, blockBase, ← List.length_drop, ← List.take_eq_take_min]
  rw [exec_pack (block_inSpace h.fits hb) chunk, cut]
  rfl

/-- R155 to R158: a pass stores the block's result at its place in DOUT. -/
theorem Serving.execAll_blockPass (h : Serving p msg s) (hW : s.W = W) (hb : s.blk < blockCount msg.length) :
    ∃ t, execAll (blockPass p) s = .next t ∧ t.W = W ∧
      t.dout = Memory.writeAll s.dout (16 * s.blk) (blockResult p W (messageBlock msg s.blk)).toList := by
  rw [← h.dlen] at hb
  obtain ⟨t, ht, hS, same⟩ :=
    transforms_blockOps p W (writeS .pack (packBlock (messageBlock msg s.blk)) s) (by simpa using hW)
  have hWt : t.W = W := same.W.trans (by simpa using hW)
  have dout : t.dout = s.dout := same.dout
  have blk : t.blk = s.blk := same.blk
  have inside : t.inSpace .dout (blockBase t) 16 = true := by
    rw [inSpace_congr (s := s) same.params, blockBase, blk]
    exact inSpace_dout (admits_blockCount h.size_wf h.fits) (by omega)
  have run : execAll (blockPass p) s = execAll [.unpack] t := by
    rw [blockPass, execAll_cons (h.pack (lt_blockCount_iff.1 hb)), execAll_append, ht, Res.andThen_next]
  refine ⟨_, run.trans (execAll_cons (exec_unpack inside)), by simpa using hWt, ?_⟩
  simp [blockBase, blk, dout, hS, blockResult]

/-- A string stored at the end of what holds a value. -/
theorem collect_writeAll {m : Memory} {n : Nat} {v : List Byte} (h : collect (Memory.read m) 0 n = some v)
    (w : List Byte) : collect (Memory.read (Memory.writeAll m n w)) 0 (n + w.length) = some (v ++ w) := by
  obtain ⟨rfl, get⟩ := collect_some h
  refine collect_append (collect_eq_some fun i hi => ?_) (collect_eq_some fun i hi => ?_)
  · rw [Nat.zero_add, Memory.read_writeAll_outside _ _ _ (.inl hi), ← get i hi, Nat.zero_add]
  · rw [Nat.zero_add, Memory.read_writeAll_inside _ _ _ hi]

/-- The command is about to test block `b`: the expanded key stands, and DOUT holds the results of the blocks before. -/
structure AtBlktest (p : ProgSel) (W : Expanded) (msg : List Byte) (b : Nat) (s : State) : Prop
    extends Serving p msg s where
  upc : s.upc.toNat = 13
  blk : s.blk = b
  nblk : s.nblk = blockCount msg.length
  words : s.W = W
  stored : collect (Memory.read s.dout) 0 (16 * b) = some (bytesOf ((firstBlocks msg b).map (blockResult p W)))

/-- R181: one pass is 44 micro-ops, from BLKTEST to NEXTBLK. -/
theorem AtBlktest.pass {b : Nat} (h : AtBlktest p W msg b s) (hb : b < blockCount msg.length) :
    ∃ t, RunsBusy 44 s t ∧ AtBlktest p W msg (b + 1) t := by
  have test : RunsBusy 1 s (advance s) :=
    h.toServing.step h.upc (by decide) (programOf_blktest p) (.blktestOn (by rw [h.blk, h.nblk]; exact hb))
  have serving : Serving p msg (advance s) := { h.toServing with }
  have upc : (advance s).upc.toNat = 14 := (upc_succ (by rw [h.upc]; decide)).trans (congrArg Nat.succ h.upc)
  obtain ⟨t, ht, hW, hdout⟩ := serving.execAll_blockPass (W := W) (by simpa using h.words) (by simpa [h.blk] using hb)
  obtain ⟨pass, servingEnd, same, upcEnd⟩ :=
    serving.straight upc (programOf_blockPass p) (blockPass_straight p) ht
  rw [length_blockPass] at pass upcEnd
  have next : RunsBusy 1 t (jumpTo loopHead (writeBlk (t.blk + 1) t)) :=
    servingEnd.step upcEnd (by decide) (programOf_nextblk p) .nextblk
  simp only [advance_fields, h.blk] at hdout
  have blk : t.blk = b := same.blk.trans h.blk
  refine ⟨_, (test.trans pass).trans next, { servingEnd with
    upc := rfl
    blk := congrArg Nat.succ blk
    nblk := same.nblk.trans h.nblk
    words := hW
    stored := ?_ }⟩
  have stored := collect_writeAll h.stored (blockResult p W (messageBlock msg b)).toList
  rw [← hdout, Vector.length_toList, ← bytesOf_append_singleton, ← Nat.mul_succ] at stored
  rw [firstBlocks_succ, List.map_append]
  exact stored

/-! ### The end of the command -/

/-- R178, R197: the command has ended, and the HOST finds the result `r`. -/
structure Delivers (msg r : List Byte) (s : State) : Prop where
  done : s.phase = .done
  olen : s.olen = 16 * blockCount msg.length
  bytes : collect (s.byteAt .dout) 0 s.olen = some r

theorem Delivers.hostResult {r : List Byte} (h : Delivers msg r s) : hostResult s = some (.ok r) := by
  rw [Machine.hostResult, h.done, h.bytes]
  rfl

theorem AtBlktest.finish (h : AtBlktest p W msg (blockCount msg.length) s) :
    RunsBusy 1 s (finish s) ∧ Delivers msg (bytesOf ((blocksOf msg).map (blockResult p W))) (finish s) := by
  have last : ¬ s.blk < s.nblk := by rw [h.blk, h.nblk]; exact Nat.lt_irrefl _
  have olen : (Machine.finish s).olen = 16 * blockCount msg.length := by simp [h.nblk]
  have dout : (Machine.finish s).byteAt .dout = Memory.read s.dout := by funext a; simp [State.byteAt]
  refine ⟨h.toServing.step h.upc (by decide) (programOf_blktest p) (.blktestEnd last), by simp, olen, ?_⟩
  rw [olen, dout]
  exact h.stored

/-- R181: the passes of the blocks that are left, and the last BLKTEST. -/
theorem AtBlktest.runs {b : Nat} (h : AtBlktest p W msg b s) (n : Nat) (hn : b + n = blockCount msg.length) :
    ∃ t, RunsBusy (44 * n + 1) s t ∧ Delivers msg (bytesOf ((blocksOf msg).map (blockResult p W))) t := by
  induction n generalizing b s with
  | zero =>
    obtain rfl : b = blockCount msg.length := hn
    exact ⟨_, h.finish⟩
  | succ n ih =>
    obtain ⟨t, pass, ht⟩ := h.pass (by omega)
    obtain ⟨u, rest, delivers⟩ := ih ht (by omega)
    refine ⟨u, ?_, delivers⟩
    rw [show 44 * (n + 1) + 1 = 44 + (44 * n + 1) by omega]
    exact pass.trans rest

/-! ### From the start to the first BLKTEST -/

/-- R173: the state that the command `p`, written to CMD as `v`, starts in. -/
def started (p : ProgSel) (v : Byte) (s : State) : State := enter p (latchCommand v s)

theorem CommandReady.length_msg (h : CommandReady s key msg) : msg.length = s.dlen := (collect_some h.msg_bytes).1

theorem CommandReady.serving (h : CommandReady s key msg) (p : ProgSel) (v : Byte) : Serving p msg (started p v s) where
  busy := rfl
  turn := h.turn
  enc := h.enc
  dec := h.dec
  prog := rfl
  dlen := h.length_msg.symm
  size_wf := h.size_wf
  fits := h.fits
  msg_bytes := h.msg_bytes

/-- R139: the key schedule, after which the loop begins at block 0. -/
theorem Serving.keysched (h : Serving p msg s) (hu : s.upc.toNat = 1) (hlen : s.keylen.toNat ≤ 16)
    (hkey : collect (s.byteAt .keybuf) 0 s.keylen.toNat = some key) (hblk : s.blk = 0)
    (hnblk : s.nblk = blockCount msg.length) :
    ∃ t, RunsBusy 12 s t ∧ AtBlktest p (expandKey (zext16 key)) msg 0 t := by
  obtain ⟨t, ht, words, -⟩ := keyScheduleComputesExpandedKey s key hlen hkey
  obtain ⟨runs, serving, same, upc⟩ := h.straight hu (programOf_keysched p) (by decide) ht
  exact ⟨t, runs, { serving with
    upc := upc
    blk := same.blk.trans hblk
    nblk := same.nblk.trans hnblk
    words := words
    stored := rfl }⟩

/-- R181: a command that CHKARGS lets go on. -/
theorem CommandReady.runs (h : CommandReady s key msg) {v : Byte} (ha : argumentFault (started p v s) = none) :
    ∃ t, RunsBusy (commandLength s) (started p v s) t ∧ Delivers msg (messageResult p msg key) t := by
  have serving := h.serving p v
  have check := serving.step (u := 0) rfl (by decide) (programOf_chkargs p) (.chkargs ha)
  have hlen : s.keylen.toNat ≤ 16 := (argumentFault_eq_none ha).1
  have checked : Serving p msg (advance (writeBlk 0 (writeNblk (blockCount s.dlen) (started p v s)))) :=
    { serving with }
  obtain ⟨t, schedule, ht⟩ := checked.keysched rfl hlen (h.key_bytes hlen) rfl (congrArg blockCount h.length_msg.symm)
  obtain ⟨u, rest, delivers⟩ := ht.runs (blockCount msg.length) (Nat.zero_add _)
  refine ⟨u, ?_, delivers⟩
  have length : commandLength s = 1 + 12 + (44 * blockCount msg.length + 1) := by
    rw [commandLength, h.length_msg]
    omega
  exact length ▸ (check.trans schedule).trans rest

/-! ### The transaction -/

/-- R165, R170. -/
def transaction : ProgSel → List Byte → List Byte → Except CoreFault (List Byte)
  | .enc => encryptMessage
  | .dec => decryptMessage

/-- The transaction fails with what CHKARGS finds wrong (R177). -/
theorem transaction_eq_error {f : CoreFault} (hk : key.length = s.keylen.toNat) (hm : msg.length = s.dlen)
    (h : argumentFault s = some f) : transaction s.prog msg key = .error f := by
  unfold argumentFault at h
  rw [← hk, ← hm] at h
  split_ifs at h with hkey hdec <;> cases h
  · cases s.prog <;> exact if_pos hkey
  · obtain ⟨hp, hlen⟩ := hdec
    rw [hp]
    exact (if_neg hkey).trans (if_pos hlen)

theorem transaction_eq_ok (hk : key.length = s.keylen.toNat) (hm : msg.length = s.dlen)
    (h : argumentFault s = none) : transaction s.prog msg key = .ok (messageResult s.prog msg key) := by
  obtain ⟨hlen, hdec⟩ := argumentFault_eq_none h
  rw [← hk] at hlen
  rw [← hm] at hdec
  cases hp : s.prog with
  | enc => exact encryptMessage_eq hlen
  | dec => exact decryptMessage_eq hlen (hdec hp)

/-- R183: the command ends, and the HOST finds what the transaction gives. -/
theorem CommandReady.agrees (h : CommandReady s key msg) (p : ProgSel) (v : Byte) :
    ∃ n u, Host.Core.run core n (started p v s) = .next u ∧ hostResult u = some (transaction p msg key) := by
  cases ha : argumentFault (started p v s) with
  | some f =>
    have fault := (h.serving p v).step (u := 0) rfl (by decide) (programOf_chkargs p) (.chkargsFault f ha)
    have fails : transaction p msg key = .error f :=
      transaction_eq_error (s := started p v s) h.key_length h.length_msg ha
    exact ⟨1, _, fault.ends, by rw [fails]; rfl⟩
  | none =>
    obtain ⟨u, runs, delivers⟩ := h.runs ha
    have succeeds : transaction p msg key = .ok (messageResult p msg key) :=
      transaction_eq_ok (s := started p v s) h.key_length h.length_msg ha
    exact ⟨_, u, runs.ends, by rw [succeeds, delivers.hostResult]⟩

end

/-! ### The obligations -/

/-- Settles O55: the agreement for ENC_PROG. -/
theorem encryptAgreesWithTransaction : Obligations.EncryptAgreesWithTransaction := by
  intro s key msg h
  obtain ⟨n, u, run, result⟩ := h.agrees .enc 0x01
  exact ⟨_, n, u, (Effect.encrypt h.ended).exec_eq, run, result⟩

/-- Settles O56: the agreement for DEC_PROG. -/
theorem decryptAgreesWithTransaction : Obligations.DecryptAgreesWithTransaction := by
  intro s key msg h
  obtain ⟨n, u, run, result⟩ := h.agrees .dec 0x02
  exact ⟨_, n, u, (Effect.decrypt h.ended).exec_eq, run, result⟩

/-- Settles O57: CHKARGS, the key schedule, a pass of 44 for each block and the last BLKTEST, BUSY before each. -/
theorem CommandReady.commandLength : Obligations.CommandLength := by
  intro s t key msg i h hlen hi ht
  obtain ⟨p, v, rfl, hdec⟩ : ∃ p v, t = started p v s ∧ (p = .dec → s.dlen % 16 = 0) := by
    rcases hi with rfl | ⟨rfl, hm⟩ <;> cases exec_effect ht
    · exact ⟨.enc, 0x01, rfl, nofun⟩
    · exact ⟨.dec, 0x02, rfl, fun _ => hm⟩
  obtain ⟨u, runs, delivers⟩ := h.runs (argumentFault_eq_none_of_legal (s := started p v s) hlen hdec)
  exact ⟨runs.busy, u, runs.ends, delivers.done, h.length_msg ▸ delivers.olen⟩

end Sys2Proof.Machine
end
